-- ==== Sys2Proof/Word.lean ====
section
/-! DEFINITION. The words of the block's interface (00_scope R7, R8). -/

namespace Sys2Proof

/-- One byte of a buffer, an address or a command byte (20_memory R41). -/
abbrev Byte := BitVec 8

/-- The command word REQ.CMD (30_encoding R51). -/
abbrev CmdWord := BitVec 16

/-- The numeric operand REQ.A and the numeric result RESP.R (00_scope R7). -/
abbrev Word64 := BitVec 64

end Sys2Proof
end

