-- ==== Sys2Proof/Syntax.lean ====
section
/-! DEFINITION. The eleven operations, one constructor per row of spec/opcode_table.json (30_encoding R52). -/

namespace Sys2Proof

/-- An operation with its only immediate operand, the digit count DIG (30_encoding R59). The other operands are fields of REQ. -/
inductive Instr
  | encFreq
  | decFreq
  | encLevel
  | decLevel
  | encOffset (dig : Nat)
  | decOffset (dig : Nat)
  | toBytes
  | parse
  | isAck
  | isNak
  | isEcho
  deriving DecidableEq, Repr

end Sys2Proof
end

