-- ==== Sys2Proof/WellFormed.lean ====
section
/-! DEFINITION. Which instructions the command word can hold (30_encoding R51, R54). -/

namespace Sys2Proof

/-- DIG is a 4-bit field (30_encoding R51). DIG = 0 is encodable and raises InvalidParameter when it runs (R54), so it is well formed. -/
def Instr.wf : Instr → Bool
  | .encOffset dig => decide (dig < 16)
  | .decOffset dig => decide (dig < 16)
  | .encFreq | .decFreq | .encLevel | .decLevel | .toBytes | .parse | .isAck | .isNak | .isEcho => true

end Sys2Proof
end

