-- ==== Sys2Proof/Decode.lean ====
section
/-! DEFINITION. The command word: decoding, total on its 65536 values, and encoding (30_encoding R51–R56, R62). -/

namespace Sys2Proof

/-- The field RSV, bits 15:8 (30_encoding R51). -/
def rsvField (w : CmdWord) : Nat := w.toNat / 256

/-- The field DIG, bits 7:4 (30_encoding R51). -/
def digField (w : CmdWord) : Nat := w.toNat / 16 % 16

/-- The field OP, bits 3:0 (30_encoding R51). -/
def opField (w : CmdWord) : Nat := w.toNat % 16

/-- Why a word selects no operation (30_encoding R53). All three raise IllegalOperation; the name is not architected (00_scope R13). -/
inductive DecodeError
  | rsvNotZero
  | reservedOp
  | digWithoutDigits
  deriving DecidableEq, Repr

/-- The operation codes of 30_encoding R52; `none` for the reserved ones (R56). -/
def opTable (op dig : Nat) : Option Instr :=
  match op with
  | 0x1 => some .encFreq
  | 0x2 => some .decFreq
  | 0x3 => some .encLevel
  | 0x4 => some .decLevel
  | 0x5 => some (.encOffset dig)
  | 0x6 => some (.decOffset dig)
  | 0x7 => some .toBytes
  | 0x8 => some .parse
  | 0x9 => some .isAck
  | 0xA => some .isNak
  | 0xB => some .isEcho
  | _ => none

/-- Decoding, with the three checks in the order 30_encoding R53 writes them. -/
def decode (w : CmdWord) : Except DecodeError Instr :=
  if rsvField w ≠ 0 then .error .rsvNotZero
  else
    match opTable (opField w) (digField w) with
    | none => .error .reservedOp
    | some i => if opField w ≠ 5 ∧ opField w ≠ 6 ∧ digField w ≠ 0 then .error .digWithoutDigits else .ok i

/-- The operation code of an instruction (30_encoding R52). -/
def Instr.opCode : Instr → Nat
  | .encFreq => 0x1
  | .decFreq => 0x2
  | .encLevel => 0x3
  | .decLevel => 0x4
  | .encOffset _ => 0x5
  | .decOffset _ => 0x6
  | .toBytes => 0x7
  | .parse => 0x8
  | .isAck => 0x9
  | .isNak => 0xA
  | .isEcho => 0xB

/-- The digit count an instruction puts in DIG: 0 for the operations without digits (30_encoding R54). -/
def Instr.digits : Instr → Nat
  | .encOffset dig => dig
  | .decOffset dig => dig
  | .encFreq | .decFreq | .encLevel | .decLevel | .toBytes | .parse | .isAck | .isNak | .isEcho => 0

/-- The command word of an instruction: OP in bits 3:0, DIG in bits 7:4, RSV zero (30_encoding R51, R63). -/
def encode (i : Instr) : CmdWord := BitVec.ofNat 16 (16 * i.digits + i.opCode)

/-- What the decoder reads from a row of the opcode table: the instruction has one 16-bit word, its bits above `nbits` zero. -/
def decodeTableWord (nbits w : Nat) : Option Instr :=
  (decode (BitVec.ofNat 16 (w % 2 ^ nbits))).toOption

end Sys2Proof
end

