-- ==== Sys2Proof/Machine/Field.lean ====
section
/-! DEFINITION. The names of the interface fields of REQ and RESP, a buffer byte by its index (10_state R19, R20, R23). -/

namespace Sys2Proof.Machine

/-- A field of the request register set, as the host writes it (10_state R19). -/
inductive ReqField
  | cmd
  | a
  | ibLen
  | ib (index : Nat)
  | fDest
  | fSrc
  | fClen
  | fCmd0
  | fCmd1
  | fPlen
  | fPayload (index : Nat)
  deriving DecidableEq, Repr

/-- A field of the response register, as the host reads it (10_state R20). -/
inductive RespField
  | status
  | r
  | obLen
  | ob (index : Nat)
  | pfDest
  | pfSrc
  | pfClen
  | pfCmd0
  | pfCmd1
  | pfPlen
  | pfPayload (index : Nat)
  deriving DecidableEq, Repr

end Sys2Proof.Machine
end

