-- ==== Sys2Proof/Config.lean ====
section
/-! DEFINITION. The configuration parameters of one instance, and the one free value (00_scope R6, 10_state R18, R30). -/

namespace Sys2Proof

/-- The parameters of 00_scope R6, fixed when the block is instantiated. -/
structure Config where
  /-- CONTROLLER_ADDR, the address IS_ECHO compares with. -/
  controllerAddr : Byte
  /-- SUBCMD_CODES, the first bytes of two-byte commands. -/
  subcmdCodes : List Byte
  /-- MAX_FRAME_BYTES, the size of IB and OB. -/
  maxFrameBytes : Nat
  /-- RESPONSE_LATENCY, in clock edges. -/
  responseLatency : Nat
  deriving DecidableEq, Repr

/-- What 00_scope R6 demands of the parameters: exactly three distinct codes, room for 32 bytes, a latency of at least 1. -/
abbrev Config.Wf (c : Config) : Prop :=
  c.subcmdCodes.length = 3 ∧ c.subcmdCodes.Nodup ∧ 32 ≤ c.maxFrameBytes ∧ 1 ≤ c.responseLatency

/-- The configuration `State.reset` carries: the default controller address (00_scope R6) and, for the OPEN parameters, the
example configuration TC of 95_test_vectors §0 with latency 1.
DESIGN CHOICE (log 2), unsafe for a claim that needs these values: statements quantify over every configuration. -/
def Config.example : Config where
  controllerAddr := 0xE0
  subcmdCodes := [0x14, 0x15, 0x16]
  maxFrameBytes := 64
  responseLatency := 1

/-- FREE VALUE (log 11): what an output pin of RESP drives at a clock edge while its field holds no value
(10_state R30: "A ⊥ field drives an unspecified value"). -/
opaque Config.undrivenPin : Nat → Machine.RespField → Word64

end Sys2Proof
end

