-- ==== Sys2Proof/Machine/State.lean ====
section
/-! DEFINITION. The machine's state as plain data, why a step can stop, and the state after reset (10_state). -/

namespace Sys2Proof.Machine

/-- A byte buffer: (index, byte) pairs, indices strictly rising. An index that is not listed holds no value, ⊥ (00_scope R16). -/
abbrev Memory := List Host.Cell

/-- The request register set (10_state R19). `none` is the spec's own "holds no value" (R32), not a missing reset value. -/
structure Req where
  cmd : Option CmdWord
  a : Option Word64
  ibLen : Option Nat
  ib : Memory
  fDest : Option Byte
  fSrc : Option Byte
  fClen : Option (BitVec 2)
  fCmd0 : Option Byte
  fCmd1 : Option Byte
  fPlen : Option Nat
  fPayload : Memory
  deriving DecidableEq, Repr

/-- A response record (10_state R20). STATUS always holds a value (R21); every other field is `none` or unlisted while it is ⊥. -/
structure Resp where
  status : Byte
  r : Option Word64
  obLen : Option Nat
  ob : Memory
  pfDest : Option Byte
  pfSrc : Option Byte
  pfClen : Option (BitVec 2)
  pfCmd0 : Option Byte
  pfCmd1 : Option Byte
  pfPlen : Option Nat
  pfPayload : Memory
  deriving DecidableEq, Repr

/-- The handshake of 10_state R30. -/
inductive Port
  /-- `req_ready` = 1: no request is outstanding. -/
  | ready
  /-- A request was accepted and is not answered; it holds the REQ fields sampled on that edge and the edges since. -/
  | busy (sampled : Req) (age : Nat)
  /-- `rsp_valid` = 1: the response has been produced and not yet taken. -/
  | answered
  deriving DecidableEq, Repr

/-- The inputs at one rising edge of `clk` (10_state R30), and whether the BFC's transaction step happens on it when it may:
the spec bounds that moment only from below (log 9). -/
structure Pins where
  rst : Bool
  reqValid : Bool
  rspReady : Bool
  answer : Bool
  deriving DecidableEq, Repr

/-- What the outside does to the machine (10_state R31, R30; 70_reset R107). -/
inductive HostAction
  /-- The host writes one REQ field; a number is stored modulo the field's width (00_scope R9). -/
  | write (f : ReqField) (v : Int)
  /-- The host issues the request now in REQ, and the BFC answers it: one atomic transaction (10_state R29). -/
  | issue
  /-- The host reads one RESP field. -/
  | read (f : RespField)
  /-- The host copies one RESP field into a REQ field (70_reset R107). -/
  | copy (src : RespField) (dst : ReqField)
  /-- The host asserts and releases `rst` (70_reset R102). -/
  | reset
  /-- One rising edge of `clk` at the port (10_state R30). -/
  | clock (pins : Pins)
  deriving DecidableEq, Repr

/-- The machine's state. REQ and RESP are all the spec calls state (10_state R17), `port` the handshake of R30;
`cfg` is the instance's parameters, which no step changes (R18; log 2).
`host`, `seen` and `edges` are the model's own (log 6, 12, 11). -/
structure State where
  cfg : Config
  req : Req
  resp : Option Resp
  port : Port
  host : List HostAction
  seen : List (RespField × Nat)
  edges : Nat
  deriving DecidableEq, Repr

/-- The model's faults (60_exceptions R93). Both are safe: the model stops where the spec gives no value. -/
inductive Fault
  /-- A request read a REQ field the host has not written since reset. The spec names this fault: "the model faults and gives the
  operation no value. It never takes the field as zero" (10_state R33; R32, 60_exceptions R93, 93_implementation_defined I24).
  Raised by the meanings and the decode through `Req` accesses. Safe. -/
  | unwrittenReqField (f : ReqField)
  /-- The host read a ⊥ field of RESP, or any field while RESP = NONE (10_state R22). Raised by a host read or copy. Safe. -/
  | noValue (f : RespField)
  deriving DecidableEq, Repr

/-- Host actions without a move in the model (10_state R31), and the arm of an instruction without a meaning. -/
inductive Refusal
  /-- `exec` has no meaning for the instruction. No arm answers so in this model. Safe. -/
  | notModelled (mnemonic : String)
  /-- The host issued a transaction while a request was outstanding at the port (70_reset R106; log 8). Safe. -/
  | requestOutstanding
  /-- The host wrote a buffer byte outside the buffer (10_state R27; log 8). Safe. -/
  | noSuchBufferByte (f : ReqField)
  deriving DecidableEq, Repr

/-- REQ after reset: no field holds a value until the host writes it (10_state R32). -/
def Req.unwritten : Req where
  cmd := none
  a := none
  ibLen := none
  ib := []
  fDest := none
  fSrc := none
  fClen := none
  fCmd0 := none
  fCmd1 := none
  fPlen := none
  fPayload := []

/-- The machine right after reset (10_state R32): RESP = NONE, REQ without values, `req_ready` = 1 and `rsp_valid` = 0.
The parameters are the example configuration (log 2); no host action is pending (log 7). -/
def State.reset : State where
  cfg := Config.example
  req := Req.unwritten
  resp := none
  port := .ready
  host := []
  seen := []
  edges := 0

end Sys2Proof.Machine
end

