-- ==== Sys2Proof/Machine/Flags.lean ====
section
/-! DEFINITION. RESP.STATUS, the block's only status indication: it has no condition flags (10_state R25, 60_exceptions R88). -/

namespace Sys2Proof.Machine

/-- The kinds an operation or the decode can raise (60_exceptions R88). The engine's kinds are never produced (R92). -/
inductive ErrorKind
  | malformedData
  | malformedFrame
  | invalidParameter
  | illegalOperation
  deriving DecidableEq, Repr

/-- STATUS of a request that completed (60_exceptions R88). -/
def statusOk : Byte := 0x00

/-- STATUS of a request that raised kind `e` (60_exceptions R88). -/
def ErrorKind.code : ErrorKind → Byte
  | .malformedData => 0x01
  | .malformedFrame => 0x02
  | .invalidParameter => 0x03
  | .illegalOperation => 0x04

/-- The answer of a predicate operation, RESP.R ∈ 0, 1 (10_state R25). -/
def answerBit (b : Bool) : Word64 := if b then 1 else 0

end Sys2Proof.Machine
end

