-- ==== Sys2Proof/Machine/Ops.lean ====
section
/-! DEFINITION. The shared operations: buffers, the fields of REQ and RESP, raising an error, and ending a request. -/

namespace Sys2Proof.Machine

/-! ## Buffers (00_scope R12, 10_state R27, 20_memory R35) -/

/-- The canonical form of a buffer: indices strictly rising. -/
abbrev Memory.wf (m : Memory) : Prop := m.Pairwise (fun x y => x.1 < y.1)

/-- The byte at an index, or `none` where the buffer holds no value. -/
def Memory.read : Memory → Nat → Option Byte
  | [], _ => none
  | (j, b) :: m, i => if j = i then some b else Memory.read m i

/-- Stores one byte at its place in the rising order. -/
def Memory.write : Memory → Nat → Byte → Memory
  | [], i, v => [(i, v)]
  | (j, b) :: m, i, v =>
    if i < j then (i, v) :: (j, b) :: m
    else if i = j then (i, v) :: m
    else (j, b) :: Memory.write m i v

/-- `MemWrite(addr, len(v), v)` of 00_scope R12. -/
def memWrite (m : Memory) (addr : Nat) : List Byte → Memory
  | [] => m
  | b :: v => memWrite (m.write addr b) (addr + 1) v

/-! ## Ending an operation early -/

/-- Why an operation ends before its last line: it raised an error (00_scope R13), or it read an unwritten field (10_state R33). -/
inductive Halt
  | raised (e : ErrorKind)
  | faulted (f : Fault)
  deriving DecidableEq, Repr

/-- `if not c: raise E` (00_scope R13, R15). -/
def check (c : Prop) [Decidable c] (e : ErrorKind) : Except Halt Unit :=
  if c then .ok () else .error (.raised e)

/-- The value of a REQ field, or the fault 10_state R33 gives a read of a field not written since reset: "the model faults and gives
the operation no value". -/
def need {α : Type} (f : ReqField) (x : Option α) : Except Halt α :=
  match x with
  | some v => .ok v
  | none => .error (.faulted (.unwrittenReqField f))

/-- `MemRead(addr, n)` of 00_scope R12 on a request buffer whose bytes `f` names. A byte never written is a field never written (log 4). -/
def memRead (f : Nat → ReqField) (m : Memory) (addr : Nat) : Nat → Except Halt (List Byte)
  | 0 => .ok []
  | n + 1 => do
    let b ← need (f addr) (m.read addr)
    let bs ← memRead f m (addr + 1) n
    return b :: bs

/-! ## The response record (10_state R20, R21) -/

/-- A record in which only STATUS holds a value. -/
def Resp.only (status : Byte) : Resp where
  status := status
  r := none
  obLen := none
  ob := []
  pfDest := none
  pfSrc := none
  pfClen := none
  pfCmd0 := none
  pfCmd1 := none
  pfPlen := none
  pfPayload := []

/-- The record of an operation that returns a number (30_encoding R58). -/
def Resp.number (v : Word64) : Resp := { Resp.only statusOk with r := some v }

/-- The record of an operation that returns bytes: OB from index 0, and OB_LEN (30_encoding R58). -/
def Resp.bytes (bs : List Byte) : Resp :=
  { Resp.only statusOk with obLen := some bs.length, ob := memWrite [] 0 bs }

/-! ## Raising an error and ending a request

There is no return from an error: it changes nothing but RESP (60_exceptions R91). -/

/-- `raise E`: RESP holds the code of `e` and nothing else (00_scope R13, 60_exceptions R89). No register is saved, no mode
changes, and the next request is taken as after a success. -/
def raiseError (e : ErrorKind) (s : State) : State := { s with resp := some (Resp.only e.code) }

/-- The end of a request: the new record replaces RESP whole (10_state R21, R29), or the model stops on the host's fault (R33). -/
def finish (s : State) : Except Halt Resp → Host.Outcome State Fault Refusal
  | .ok r => .next { s with resp := some r }
  | .error (.raised e) => .next (raiseError e s)
  | .error (.faulted f) => .fault f

/-! ## Reset (10_state R32, 70_reset R102) -/

/-- Reset of the block: RESP = NONE, REQ without values, an accepted request abandoned, the parameters kept. -/
def resetBlock (s : State) : State := { s with req := Req.unwritten, resp := none, port := .ready }

/-! ## The port's view (10_state R30) -/

/-- `req_ready`: 0 from the edge that accepts a request until the edge on which its response is taken. -/
def Port.reqReady : Port → Bool
  | .ready => true
  | .busy _ _ => false
  | .answered => false

/-- `rsp_valid`: 1 from the edge that produces the response until the edge on which it is taken. -/
def Port.rspValid : Port → Bool
  | .ready => false
  | .busy _ _ => false
  | .answered => true

/-- Whether an accepted request waits for its response (10_state R30). -/
def Port.waiting : Port → Bool
  | .ready => false
  | .busy _ _ => true
  | .answered => false

/-! ## The host's writes and reads (10_state R19, R20, R31) -/

/-- LEN_BITS = ceil(log2(MAX_FRAME_BYTES + 1)), the width of the length fields (00_scope R7). -/
def lenBits (c : Config) : Nat := Nat.log2 c.maxFrameBytes + 1

/-- The size of F_PAYLOAD and PF_PAYLOAD (10_state R27). -/
def payloadBytes (c : Config) : Nat := c.maxFrameBytes - 6

/-- A length as its field stores it: a natural number below 2^LEN_BITS (00_scope R7, R9). -/
def storeLen (c : Config) (v : Int) : Nat := (v % 2 ^ lenBits c).toNat

/-- Whether the field is one of the interface: a buffer byte exists only inside its buffer (10_state R27). -/
def ReqField.inBuffer (c : Config) : ReqField → Bool
  | .ib i => decide (i < c.maxFrameBytes)
  | .fPayload i => decide (i < payloadBytes c)
  | .cmd | .a | .ibLen | .fDest | .fSrc | .fClen | .fCmd0 | .fCmd1 | .fPlen => true

/-- REQ with one field written: storing a number in an N-bit field stores it modulo 2^N (00_scope R9; widths 10_state R19). -/
def Req.write (c : Config) (q : Req) (f : ReqField) (v : Int) : Req :=
  match f with
  | .cmd => { q with cmd := some (BitVec.ofInt 16 v) }
  | .a => { q with a := some (BitVec.ofInt 64 v) }
  | .ibLen => { q with ibLen := some (storeLen c v) }
  | .ib i => { q with ib := q.ib.write i (BitVec.ofInt 8 v) }
  | .fDest => { q with fDest := some (BitVec.ofInt 8 v) }
  | .fSrc => { q with fSrc := some (BitVec.ofInt 8 v) }
  | .fClen => { q with fClen := some (BitVec.ofInt 2 v) }
  | .fCmd0 => { q with fCmd0 := some (BitVec.ofInt 8 v) }
  | .fCmd1 => { q with fCmd1 := some (BitVec.ofInt 8 v) }
  | .fPlen => { q with fPlen := some (storeLen c v) }
  | .fPayload i => { q with fPayload := q.fPayload.write i (BitVec.ofInt 8 v) }

/-- The value a REQ field holds, as an unsigned number; `none` until the host writes it (10_state R19, R32). -/
def Req.read (q : Req) : ReqField → Option Nat
  | .cmd => q.cmd.map BitVec.toNat
  | .a => q.a.map BitVec.toNat
  | .ibLen => q.ibLen
  | .ib i => (q.ib.read i).map BitVec.toNat
  | .fDest => q.fDest.map BitVec.toNat
  | .fSrc => q.fSrc.map BitVec.toNat
  | .fClen => q.fClen.map BitVec.toNat
  | .fCmd0 => q.fCmd0.map BitVec.toNat
  | .fCmd1 => q.fCmd1.map BitVec.toNat
  | .fPlen => q.fPlen
  | .fPayload i => (q.fPayload.read i).map BitVec.toNat

/-- The width of a REQ field in bits (10_state R19, 00_scope R7). -/
def ReqField.width (c : Config) : ReqField → Nat
  | .cmd => 16
  | .a => 64
  | .ibLen | .fPlen => lenBits c
  | .fClen => 2
  | .ib _ | .fDest | .fSrc | .fCmd0 | .fCmd1 | .fPayload _ => 8

/-- The value a host reads from a field of a record, as an unsigned number; `none` where the field is ⊥ (10_state R20). -/
def Resp.read (r : Resp) : RespField → Option Nat
  | .status => some r.status.toNat
  | .r => r.r.map BitVec.toNat
  | .obLen => r.obLen
  | .ob i => (r.ob.read i).map BitVec.toNat
  | .pfDest => r.pfDest.map BitVec.toNat
  | .pfSrc => r.pfSrc.map BitVec.toNat
  | .pfClen => r.pfClen.map BitVec.toNat
  | .pfCmd0 => r.pfCmd0.map BitVec.toNat
  | .pfCmd1 => r.pfCmd1.map BitVec.toNat
  | .pfPlen => r.pfPlen
  | .pfPayload i => (r.pfPayload.read i).map BitVec.toNat

/-- The value of a RESP field; no field has one while RESP = NONE (10_state R22). -/
def State.respValue (s : State) (f : RespField) : Option Nat := s.resp.bind (·.read f)

/-- The width of a RESP field in bits (10_state R20, 00_scope R7). -/
def RespField.width (c : Config) : RespField → Nat
  | .r => 64
  | .obLen | .pfPlen => lenBits c
  | .pfClen => 2
  | .status | .ob _ | .pfDest | .pfSrc | .pfCmd0 | .pfCmd1 | .pfPayload _ => 8

/-- What the output port of a RESP field shows: the field's value, else a free value of its width (10_state R30; log 11). -/
def State.respPin (s : State) (f : RespField) : Nat :=
  (s.respValue f).getD ((Config.undrivenPin s.edges f).toNat % 2 ^ f.width s.cfg)

end Sys2Proof.Machine
end

