-- ==== Sys2Proof/Machine/Operands.lean ====
section
/-! DEFINITION. The constants of the source, the digit and byte functions of the codecs, and the operand forms
(00_scope R5, R9–R11; 30_encoding R59, R60; 40_bcd R69; 41_frame R76, R81). -/

namespace Sys2Proof.Machine

/-! ## Constants (00_scope R5) -/

/-- One byte of PREAMBLE, which is this byte twice. -/
def preambleByte : Byte := 0xFE

/-- TERMINATOR. -/
def terminator : Byte := 0xFD

/-- The command of an ACK frame. -/
def ackCode : Byte := 0xFB

/-- The command of a NAK frame. -/
def nakCode : Byte := 0xFA

/-- MIN_FRAME_BYTES. -/
def minFrameBytes : Nat := 6

/-- FREQ_BYTES. -/
def freqBytes : Nat := 5

/-- The largest frequency of ten digits (40_bcd R65). -/
def maxFreq : Nat := 9999999999

/-- LEVEL_BYTES. -/
def levelBytes : Nat := 2

/-- The largest level (40_bcd R67). -/
def maxLevel : Nat := 255

/-! ## Digits and BCD bytes (00_scope R8, R11; 20_memory R36, R37) -/

/-- `digit(m, k)`: the k-th decimal digit of `m`, k = 0 the units (00_scope R11). -/
def digit (m k : Nat) : Nat := m / 10 ^ k % 10

/-- The low nibble `b[3:0]`. -/
def lowNibble (b : Byte) : Nat := b.toNat % 16

/-- The high nibble `b[7:4]`. -/
def highNibble (b : Byte) : Nat := b.toNat / 16

/-- A valid BCD digit pair (00_scope R11). -/
def validPair (b : Byte) : Bool := decide (lowNibble b ≤ 9) && decide (highNibble b ≤ 9)

/-- The byte with digit `hi` in its high nibble and `lo` in its low one: `16*hi + lo`. -/
def bcdByte (hi lo : Nat) : Byte := BitVec.ofNat 8 (16 * hi + lo)

/-- The `n` BCD bytes of `m`, least significant first: byte j holds digits 2j and 2j+1 (40_bcd R65). -/
def bcdBytes (m n : Nat) : List Byte :=
  (List.range n).map fun j => bcdByte (digit m (2 * j + 1)) (digit m (2 * j))

/-- The number BCD bytes hold, least significant byte first: the sum of `(10*b[j][7:4] + b[j][3:0]) * 100^j` (40_bcd R66). -/
def bcdValue : List Byte → Nat
  | [] => 0
  | b :: bs => 10 * highNibble b + lowNibble b + 100 * bcdValue bs

/-! ## Signed offsets (40_bcd R69, R71) -/

/-- The byte count of an offset of `d` digits: floor(d/2) + 1. -/
def offsetLen (d : Nat) : Nat := d / 2 + 1

/-- Byte `j` of `OffsetBytes(x, d)` (40_bcd R69): digits 2j and 2j+1 below d, and the sign in bit 7 of the last byte. -/
def offsetByte (x : Int) (d j : Nat) : Byte :=
  let m := x.natAbs
  let lo := if 2 * j < d then digit m (2 * j) else 0
  let hi := if 2 * j + 1 < d then digit m (2 * j + 1) else 0
  BitVec.ofNat 8 (16 * hi + lo + (if j + 1 = offsetLen d ∧ x < 0 then 128 else 0))

/-- `OffsetBytes(x, d)` (40_bcd R69). -/
def offsetBytes (x : Int) (d : Nat) : List Byte := (List.range (offsetLen d)).map (offsetByte x d)

/-- `nib(k)`: nibble k of a byte sequence, 2j the low and 2j+1 the high nibble of byte j (40_bcd R71). -/
def nib (b : List Byte) (k : Nat) : Nat :=
  if k % 2 = 0 then lowNibble (b.getD (k / 2) 0) else highNibble (b.getD (k / 2) 0)

/-- The magnitude of an offset: the sum of `nib(k) * 10^k` for k below d (40_bcd R71). -/
def offsetMagnitude (b : List Byte) : Nat → Nat
  | 0 => 0
  | k + 1 => offsetMagnitude b k + nib b k * 10 ^ k

/-- The sign byte, `b[n-1]` (40_bcd R71). -/
def signByte (b : List Byte) (d : Nat) : Byte := b.getD (offsetLen d - 1) 0

/-- `t[7] == 1`: the offset is negative (40_bcd R71). -/
def signSet (t : Byte) : Bool := decide (128 ≤ t.toNat)

/-- `t[6:4]` (40_bcd R71). -/
def signUnused (t : Byte) : Nat := t.toNat / 16 % 8

/-- The value of an offset: minus the magnitude when the sign is set (40_bcd R71). -/
def offsetValue (b : List Byte) (d : Nat) : Int :=
  if signSet (signByte b d) then -(offsetMagnitude b d : Int) else (offsetMagnitude b d : Int)

/-! ## Frames (41_frame R76, R81) -/

/-- `WireForm(dest, src, cmd, payload)` (41_frame R76). -/
def wireForm (dest src : Byte) (cmd payload : List Byte) : List Byte :=
  [preambleByte, preambleByte] ++ [dest] ++ [src] ++ cmd ++ payload ++ [terminator]

/-- `CmdLen(b, L)`, the sub-command split rule (41_frame R81): two bytes when the first body byte is a sub-command code and the
body has at least two bytes. It reads no other byte. -/
def cmdLen (c : Config) (first : Byte) (len : Nat) : Nat :=
  if first ∈ c.subcmdCodes ∧ 2 ≤ len - 5 then 2 else 1

/-! ## Operand forms (30_encoding R57, R59, R60) -/

/-- `uval(REQ.A)` (30_encoding R59). -/
def operandUnsigned (q : Req) : Except Halt Nat := do
  let a ← need .a q.a
  return a.toNat

/-- `sval(REQ.A)`, 64-bit two's complement (30_encoding R59). -/
def operandSigned (q : Req) : Except Halt Int := do
  let a ← need .a q.a
  return a.toInt

/-- IB_LEN, checked against the buffer's size before anything else is read (40_bcd R66, R68, R71; 41_frame R80). -/
def operandLen (c : Config) (q : Req) : Except Halt Nat := do
  let len ← need .ibLen q.ibLen
  check (len ≤ c.maxFrameBytes) .invalidParameter
  return len

/-- IB[0 .. n-1] for a decoder whose encoding has exactly `n` bytes: any other length is MalformedData (40_bcd R66, R68, R71). -/
def operandBytes (c : Config) (q : Req) (n : Nat) : Except Halt (List Byte) := do
  let len ← operandLen c q
  check (len = n) .malformedData
  memRead .ib q.ib 0 n

/-- `WF_F(REQ)` (30_encoding R60): both F_CLEN and F_PLEN are read, whichever part fails (log 3). It gives the two lengths. -/
def operandFrame (c : Config) (q : Req) : Except Halt (Nat × Nat) := do
  let clen ← need .fClen q.fClen
  let plen ← need .fPlen q.fPlen
  check ((clen.toNat = 1 ∨ clen.toNat = 2) ∧ 5 + clen.toNat + plen ≤ c.maxFrameBytes) .invalidParameter
  return (clen.toNat, plen)

/-- The command bytes of the frame operand; F_CMD1 is read only when F_CLEN = 2 (41_frame R78). -/
def operandCmd (q : Req) (clen : Nat) : Except Halt (List Byte) := do
  let c0 ← need .fCmd0 q.fCmd0
  if clen = 2 then do
    let c1 ← need .fCmd1 q.fCmd1
    return [c0, c1]
  else
    return [c0]

end Sys2Proof.Machine
end

