-- ==== Sys2Proof/Machine/Bcd.lean ====
section
/-! DEFINITION. The BCD codec operations (40_bcd R65–R71): what each answers, a function of CFG and REQ alone (10_state R28);
and which encoder and decoder make a pair, on what domain (R72). -/

namespace Sys2Proof.Machine

/-- ENC_FREQ (40_bcd R65). -/
def respEncFreq (q : Req) : Except Halt Resp := do
  let hz ← operandUnsigned q
  check (hz ≤ maxFreq) .invalidParameter
  return Resp.bytes (bcdBytes hz freqBytes)

/-- DEC_FREQ (40_bcd R66). -/
def respDecFreq (c : Config) (q : Req) : Except Halt Resp := do
  let b ← operandBytes c q freqBytes
  check (b.all validPair = true) .malformedData
  return Resp.number (BitVec.ofNat 64 (bcdValue b))

/-- ENC_LEVEL (40_bcd R67): tens and units in byte 0, hundreds in the low nibble of byte 1. -/
def respEncLevel (q : Req) : Except Halt Resp := do
  let v ← operandUnsigned q
  check (v ≤ maxLevel) .invalidParameter
  return Resp.bytes [bcdByte (digit v 1) (digit v 0), bcdByte 0 (digit v 2)]

/-- DEC_LEVEL (40_bcd R68). -/
def respDecLevel (c : Config) (q : Req) : Except Halt Resp := do
  let b ← operandBytes c q levelBytes
  check (b.all validPair = true) .malformedData
  check (bcdValue b ≤ maxLevel) .malformedData
  return Resp.number (BitVec.ofNat 64 (bcdValue b))

/-- ENC_OFFSET with `maxDigits` = d (40_bcd R70). -/
def respEncOffset (q : Req) (d : Nat) : Except Halt Resp := do
  check (d ≠ 0) .invalidParameter
  let x ← operandSigned q
  check (x.natAbs ≤ 10 ^ d - 1) .invalidParameter
  return Resp.bytes (offsetBytes x d)

/-- DEC_OFFSET with `maxDigits` = d (40_bcd R71), its checks in the order written. -/
def respDecOffset (c : Config) (q : Req) (d : Nat) : Except Halt Resp := do
  check (d ≠ 0) .invalidParameter
  let b ← operandBytes c q (offsetLen d)
  check ((b.take (offsetLen d - 1)).all validPair = true) .malformedData
  let t := signByte b d
  check (signUnused t = 0) .malformedData
  check (d % 2 = 1 → lowNibble t ≤ 9) .malformedData
  check (d % 2 = 0 → lowNibble t = 0) .malformedData
  check (¬(signSet t = true ∧ offsetMagnitude b d = 0)) .malformedData
  return Resp.number (BitVec.ofInt 64 (offsetValue b d))

/-- The meaning of ENC_FREQ; `execDecFreq` takes its output back to the operand (40_bcd R72). -/
def execEncFreq (s : State) : Host.Outcome State Fault Refusal := finish s (respEncFreq s.req)

/-- The meaning of DEC_FREQ: OK exactly on the outputs of `execEncFreq` (40_bcd R72). -/
def execDecFreq (s : State) : Host.Outcome State Fault Refusal := finish s (respDecFreq s.cfg s.req)

/-- The meaning of ENC_LEVEL; `execDecLevel` takes its output back to the operand (40_bcd R72). -/
def execEncLevel (s : State) : Host.Outcome State Fault Refusal := finish s (respEncLevel s.req)

/-- The meaning of DEC_LEVEL: OK exactly on the outputs of `execEncLevel` (40_bcd R72). -/
def execDecLevel (s : State) : Host.Outcome State Fault Refusal := finish s (respDecLevel s.cfg s.req)

/-- The meaning of ENC_OFFSET; `execDecOffset` takes its output back to the operand (40_bcd R72). -/
def execEncOffset (dig : Nat) (s : State) : Host.Outcome State Fault Refusal := finish s (respEncOffset s.req dig)

/-- The meaning of DEC_OFFSET: OK exactly on the outputs of `execEncOffset` (40_bcd R72). -/
def execDecOffset (dig : Nat) (s : State) : Host.Outcome State Fault Refusal := finish s (respDecOffset s.cfg s.req dig)

/-! ## The codec pairs of the round-trip laws (40_bcd R72) -/

/-- The decoder an encoder's output is meant for: of an offset, the one with the same digit count (40_bcd R72). -/
def decoderOf : Instr → Option Instr
  | .encFreq => some .decFreq
  | .encLevel => some .decLevel
  | .encOffset d => some (.decOffset d)
  | .decFreq | .decLevel | .decOffset _ | .toBytes | .parse | .isAck | .isNak | .isEcho => none

/-- The domain of an encoder, as 40_bcd R72 states it: the operands A it encodes. -/
def encoderDomain : Instr → Word64 → Prop
  | .encFreq, a => a.toNat ≤ maxFreq
  | .encLevel, a => a.toNat ≤ maxLevel
  | .encOffset d, a => (1 ≤ d ∧ d ≤ 15) ∧ a.toInt.natAbs ≤ 10 ^ d - 1
  | .decFreq, _ | .decLevel, _ | .decOffset _, _ | .toBytes, _ | .parse, _ | .isAck, _ | .isNak, _ | .isEcho, _ => False

end Sys2Proof.Machine
end

