-- ==== Sys2Proof/Machine/Frame.lean ====
section
/-! DEFINITION. The frame codec operations (41_frame R76–R84): what each answers, a function of CFG and REQ alone (10_state R28). -/

namespace Sys2Proof.Machine

/-- TOBYTES (41_frame R78): every content byte is copied verbatim, 0xFE and 0xFD too (R77). -/
def respToBytes (c : Config) (q : Req) : Except Halt Resp := do
  let (clen, plen) ← operandFrame c q
  let cmd ← operandCmd q clen
  let payload ← memRead .fPayload q.fPayload 0 plen
  let dest ← need .fDest q.fDest
  let src ← need .fSrc q.fSrc
  return Resp.bytes (wireForm dest src cmd payload)

/-- The record PARSE returns for a frame of bytes `b` that passed its checks, with command length `k` (41_frame R80). -/
def Resp.frame (b : List Byte) (k : Nat) : Resp :=
  { Resp.only statusOk with
    pfDest := some (b.getD 2 0)
    pfSrc := some (b.getD 3 0)
    pfClen := some (BitVec.ofNat 2 k)
    pfCmd0 := some (b.getD 4 0)
    pfCmd1 := if k = 2 then some (b.getD 5 0) else none
    pfPlen := some (b.length - 5 - k)
    pfPayload := memWrite [] 0 ((b.drop (4 + k)).take (b.length - 5 - k)) }

/-- PARSE (41_frame R80): preamble, terminator and length are checked, and nothing else (92_eei D21). -/
def respParse (c : Config) (q : Req) : Except Halt Resp := do
  let len ← operandLen c q
  check (minFrameBytes ≤ len) .malformedFrame
  let b ← memRead .ib q.ib 0 len
  check (b.getD 0 0 = preambleByte ∧ b.getD 1 0 = preambleByte) .malformedFrame
  check (b.getD (len - 1) 0 = terminator) .malformedFrame
  return Resp.frame b (cmdLen c (b.getD 4 0) len)

/-- The frame predicate "single-byte command equal to `code`" of IS_ACK and IS_NAK (41_frame R82, R83); the payload is not examined. -/
def respIsCommand (c : Config) (q : Req) (code : Byte) : Except Halt Resp := do
  let (clen, _) ← operandFrame c q
  let c0 ← need .fCmd0 q.fCmd0
  return Resp.number (answerBit (decide (clen = 1 ∧ c0 = code)))

/-- IS_ECHO (41_frame R84): from the controller, and not to it. -/
def respIsEcho (c : Config) (q : Req) : Except Halt Resp := do
  let _ ← operandFrame c q
  let src ← need .fSrc q.fSrc
  let dest ← need .fDest q.fDest
  return Resp.number (answerBit (decide (src = c.controllerAddr ∧ dest ≠ c.controllerAddr)))

/-- The meaning of TOBYTES. -/
def execToBytes (s : State) : Host.Outcome State Fault Refusal := finish s (respToBytes s.cfg s.req)

/-- The meaning of PARSE. -/
def execParse (s : State) : Host.Outcome State Fault Refusal := finish s (respParse s.cfg s.req)

/-- The meaning of IS_ACK. -/
def execIsAck (s : State) : Host.Outcome State Fault Refusal := finish s (respIsCommand s.cfg s.req ackCode)

/-- The meaning of IS_NAK. -/
def execIsNak (s : State) : Host.Outcome State Fault Refusal := finish s (respIsCommand s.cfg s.req nakCode)

/-- The meaning of IS_ECHO. -/
def execIsEcho (s : State) : Host.Outcome State Fault Refusal := finish s (respIsEcho s.cfg s.req)

end Sys2Proof.Machine
end

