-- ==== Sys2Proof/Machine/Dispatch.lean ====
section
/-! DEFINITION. The dispatch of 30_encoding R53: one arm per operation. -/

namespace Sys2Proof.Machine

def exec (i : Instr) (s : State) : Host.Outcome State Fault Refusal :=
  match i with
  | .encFreq => Sys2Proof.Machine.execEncFreq s
  | .decFreq => Sys2Proof.Machine.execDecFreq s
  | .encLevel => Sys2Proof.Machine.execEncLevel s
  | .decLevel => Sys2Proof.Machine.execDecLevel s
  | .encOffset dig => Sys2Proof.Machine.execEncOffset dig s
  | .decOffset dig => Sys2Proof.Machine.execDecOffset dig s
  | .toBytes => Sys2Proof.Machine.execToBytes s
  | .parse => Sys2Proof.Machine.execParse s
  | .isAck => Sys2Proof.Machine.execIsAck s
  | .isNak => Sys2Proof.Machine.execIsNak s
  | .isEcho => Sys2Proof.Machine.execIsEcho s

end Sys2Proof.Machine
end

