-- ==== Sys2Proof/Machine/Transaction.lean ====
section
/-! DEFINITION. The transaction, the port's clock edge, and the host's actions (10_state R29–R31; 70_reset R102, R107). -/

namespace Sys2Proof.Machine

/-- `RESP <- Exec(CFG, REQ)` (10_state R29, 30_encoding R53): the command word is decoded, and a word that selects no operation
raises IllegalOperation before anything else of REQ is read. A command word not written since reset is the fault of 10_state R33. -/
def transaction (s : State) : Host.Outcome State Fault Refusal :=
  match s.req.cmd with
  | none => .fault (.unwrittenReqField .cmd)
  | some w =>
    match decode w with
    | .error _ => .next (raiseError .illegalOperation s)
    | .ok i => exec i s

/-- The BFC answers the request sampled at acceptance: a transaction on those fields; the REQ ports keep what the host drives. -/
def answerSampled (q : Req) (s : State) : Host.Outcome State Fault Refusal :=
  match transaction { s with req := q } with
  | .next t => .next { t with req := s.req, port := .answered }
  | .fault f => .fault f
  | .refused r => .refused r

/-- One rising edge of `clk` (10_state R30, 70_reset R102). With `rst` asserted the block resets and accepts nothing.
A request is accepted where `req_valid` = 1 and `req_ready` = 1. The response appears no earlier than RESPONSE_LATENCY edges
later, on the edge the action names (log 9). It is taken where `rsp_valid` = 1 and `rsp_ready` = 1. -/
def clockEdge (p : Pins) (s : State) : Host.Outcome State Fault Refusal :=
  let s := { s with edges := s.edges + 1 }
  if p.rst then .next (resetBlock s)
  else
    match s.port with
    | .ready => if p.reqValid then .next { s with port := .busy s.req 0 } else .next s
    | .busy q age =>
      if p.answer = true ∧ s.cfg.responseLatency ≤ age + 1 then answerSampled q s
      else .next { s with port := .busy q (age + 1) }
    | .answered => if p.rspReady then .next { s with port := .ready } else .next s

/-- The host writes one REQ field (10_state R19). A buffer byte that does not exist has no move (log 8). -/
def hostWrite (f : ReqField) (v : Int) (s : State) : Host.Outcome State Fault Refusal :=
  if f.inBuffer s.cfg then .next { s with req := s.req.write s.cfg f v } else .refused (.noSuchBufferByte f)

/-- The host reads one RESP field; a ⊥ field is the host's fault (10_state R22). A read changes nothing of the block
(20_memory R43); the value goes to `seen`. -/
def hostRead (f : RespField) (s : State) : Host.Outcome State Fault Refusal :=
  match s.respValue f with
  | some v => .next { s with seen := (f, v) :: s.seen }
  | none => .fault (.noValue f)

/-- The host copies a RESP field into a REQ field (70_reset R107). -/
def hostCopy (src : RespField) (dst : ReqField) (s : State) : Host.Outcome State Fault Refusal :=
  match s.respValue src with
  | some v => hostWrite dst v s
  | none => .fault (.noValue src)

/-- A transaction as the host issues it: none while a request is outstanding at the port (70_reset R106; log 8). -/
def issueRequest (s : State) : Host.Outcome State Fault Refusal :=
  if s.port.reqReady then transaction s else .refused .requestOutstanding

/-- What one action does. -/
def runAction (x : HostAction) (s : State) : Host.Outcome State Fault Refusal :=
  match x with
  | .write f v => hostWrite f v s
  | .issue => issueRequest s
  | .read f => hostRead f s
  | .copy src dst => hostCopy src dst s
  | .reset => .next (resetBlock s)
  | .clock p => clockEdge p s

/-- A clock edge on which the host drives nothing, so that only the block's own step can happen: it answers when it may. -/
def quietPins : Pins where
  rst := false
  reqValid := false
  rspReady := false
  answer := true

/-- What happens while the host does nothing. Between requests the block is idle and keeps RESP (60_exceptions R101); it never
starts a step by itself (10_state R34). While an accepted request waits, the clock goes on and the block answers as soon as it may:
the weak fairness of 70_reset R109 (log 9). -/
def idle (s : State) : Host.Outcome State Fault Refusal :=
  if s.port.waiting then clockEdge quietPins s else .next s

/-- REQ with a value in every scalar field the host has left unwritten, as its duty of 10_state R31 asks before a request:
zero, and one command byte for the frame operand. DESIGN CHOICE (log 7). -/
def Req.filled (q : Req) : Req :=
  { q with
    a := q.a.or (some 0)
    ibLen := q.ibLen.or (some 0)
    fDest := q.fDest.or (some 0)
    fSrc := q.fSrc.or (some 0)
    fClen := q.fClen.or (some 1)
    fCmd0 := q.fCmd0.or (some 0)
    fCmd1 := q.fCmd1.or (some 0)
    fPlen := q.fPlen.or (some 0) }

/-- The state in which a request with command word `w` is the next thing that happens (log 7). -/
def presentWord (s : State) (w : CmdWord) : State :=
  { s with
    req := { s.req.filled with cmd := some w }
    port := .ready
    host := .issue :: s.host }

end Sys2Proof.Machine
end

