-- ==== Sys2Proof/Machine/Step.lean ====
section
/-! DEFINITION. One step of the machine: the next action of the outside, or what the block does meanwhile (10_state R29, R31, R34; 70_reset R109). -/

namespace Sys2Proof.Machine

/-- One step: the first pending host action happens; with none pending the block finishes the request it has
accepted, if any, and then idles. -/
def step (s : State) : Host.Outcome State Fault Refusal :=
  match s.host with
  | [] => idle s
  | x :: rest => runAction x { s with host := rest }

/-- The machine fetches nothing (10_state R24): the command word arrives with each request (20_memory R49). So this is the state
in which the host has put the word in REQ.CMD, given every field a value (R31), and issues the request next (log 7). -/
def State.withFetchWord (s : State) (nbits w : Nat) : State :=
  presentWord s (BitVec.ofNat 16 (w % 2 ^ nbits))

end Sys2Proof.Machine
end

