-- ==== Sys2Proof/Machine/Assembler.lean ====
section
/-! DEFINITION. The assembler line of a request: its operands, the REQ fields they fill, and its text (30_encoding R63, R64).
The host uses it to write REQ; the block never sees a line. -/

namespace Sys2Proof.Machine

/-! ## Lines and what they fill -/

/-- The frame operand `f` of a line: one or two command bytes. -/
structure FrameArg where
  dest : Byte
  src : Byte
  cmd0 : Byte
  cmd1 : Option Byte
  payload : List Byte
  deriving DecidableEq, Repr

/-- A line of 30_encoding R63. A line without `d` has d = 0. -/
inductive AsmLine
  | encFreq (a : Int)
  | decFreq (ib : List Byte)
  | encLevel (a : Int)
  | decLevel (ib : List Byte)
  | encOffset (d : Nat) (a : Int)
  | decOffset (d : Nat) (ib : List Byte)
  | toBytes (f : FrameArg)
  | parse (ib : List Byte)
  | isAck (f : FrameArg)
  | isNak (f : FrameArg)
  | isEcho (f : FrameArg)
  deriving DecidableEq, Repr

/-- The operation of a line. -/
def AsmLine.instr : AsmLine → Instr
  | .encFreq _ => .encFreq
  | .decFreq _ => .decFreq
  | .encLevel _ => .encLevel
  | .decLevel _ => .decLevel
  | .encOffset d _ => .encOffset d
  | .decOffset d _ => .decOffset d
  | .toBytes _ => .toBytes
  | .parse _ => .parse
  | .isAck _ => .isAck
  | .isNak _ => .isNak
  | .isEcho _ => .isEcho

/-- Bytes put in a buffer from an index up. -/
def fillWrites (f : Nat → ReqField) (i : Nat) : List Byte → List (ReqField × Int)
  | [] => []
  | b :: bs => (f i, (b.toNat : Int)) :: fillWrites f (i + 1) bs

/-- `ib=[...]` fills IB from index 0 and sets IB_LEN (30_encoding R63). -/
def ibWrites (bs : List Byte) : List (ReqField × Int) := (.ibLen, (bs.length : Int)) :: fillWrites .ib 0 bs

/-- What `f` fills (30_encoding R63). -/
def frameWrites (f : FrameArg) : List (ReqField × Int) :=
  [(.fDest, (f.dest.toNat : Int)), (.fSrc, (f.src.toNat : Int)), (.fCmd0, (f.cmd0.toNat : Int)),
    (.fPlen, (f.payload.length : Int))]
  ++ (match f.cmd1 with
      | some c => [(.fClen, 2), (.fCmd1, (c.toNat : Int))]
      | none => [(.fClen, 1)])
  ++ fillWrites .fPayload 0 f.payload

/-- The operand fields a line fills. -/
def AsmLine.operandWrites : AsmLine → List (ReqField × Int)
  | .encFreq a => [(.a, a)]
  | .encLevel a => [(.a, a)]
  | .encOffset _ a => [(.a, a)]
  | .decFreq ib => ibWrites ib
  | .decLevel ib => ibWrites ib
  | .decOffset _ ib => ibWrites ib
  | .parse ib => ibWrites ib
  | .toBytes f => frameWrites f
  | .isAck f => frameWrites f
  | .isNak f => frameWrites f
  | .isEcho f => frameWrites f

/-- All fields a line fills: the command word, then the operands. -/
def AsmLine.writes (l : AsmLine) : List (ReqField × Int) :=
  (.cmd, ((encode l.instr).toNat : Int)) :: l.operandWrites

/-- The host's actions for one line: write the fields, then issue the request. A line with more bytes than its buffer ends in the
refusal of its first byte outside (log 8, log 20). -/
def AsmLine.actions (l : AsmLine) : List HostAction :=
  l.writes.map (fun x => HostAction.write x.1 x.2) ++ [.issue]

/-- REQ with the fields of a line written. A line with more bytes than its buffer is filled all the same (log 20). -/
def AsmLine.fill (l : AsmLine) (c : Config) (q : Req) : Req :=
  l.writes.foldl (fun q x => q.write c x.1 x.2) q

/-! ## Names (30_encoding R52, R64) -/

/-- The mnemonic of an operation. -/
def mnemonicOf : Instr → String
  | .encFreq => "ENC_FREQ"
  | .decFreq => "DEC_FREQ"
  | .encLevel => "ENC_LEVEL"
  | .decLevel => "DEC_LEVEL"
  | .encOffset _ => "ENC_OFFSET"
  | .decOffset _ => "DEC_OFFSET"
  | .toBytes => "TOBYTES"
  | .parse => "PARSE"
  | .isAck => "IS_ACK"
  | .isNak => "IS_NAK"
  | .isEcho => "IS_ECHO"

/-- The source's function name, accepted as an alias (30_encoding R64). -/
def sourceNameOf : Instr → String
  | .encFreq => "encodeFrequency"
  | .decFreq => "decodeFrequency"
  | .encLevel => "encodeLevel"
  | .decLevel => "decodeLevel"
  | .encOffset _ => "encodeSignedOffset"
  | .decOffset _ => "decodeSignedOffset"
  | .toBytes => "toBytes"
  | .parse => "parse"
  | .isAck => "isAck"
  | .isNak => "isNak"
  | .isEcho => "isEcho"

/-- The operation a name stands for, with digit count `d`. -/
def instrNamed (name : List Char) (d : Nat) : Option Instr :=
  [Instr.encFreq, .decFreq, .encLevel, .decLevel, .encOffset d, .decOffset d, .toBytes, .parse, .isAck, .isNak, .isEcho].find?
    fun i => (mnemonicOf i).toList = name || (sourceNameOf i).toList = name

/-! ## The text of a line (30_encoding R63; bytes and numbers as 00_scope R8 writes them; log 17) -/

/-- A word, or one punctuation character. -/
inductive Token
  | word (cs : List Char)
  | mark (c : Char)
  deriving DecidableEq, Repr

/-- The opening brace of the `f` operand. -/
def openBrace : Char := Char.ofNat 123

/-- The closing brace of the `f` operand. -/
def closeBrace : Char := Char.ofNat 125

/-- Puts a word read backwards in front of the tokens. -/
def flushWord (rev : List Char) (ts : List Token) : List Token :=
  if rev.isEmpty then ts else .word rev.reverse :: ts

/-- Letters, digits, `_` and `-` make words; other characters but blanks are marks. -/
def tokens (rev : List Char) : List Char → List Token
  | [] => flushWord rev []
  | c :: cs =>
    if c.isAlphanum || c = '_' || c = '-' then tokens (c :: rev) cs
    else if c = ' ' then flushWord rev (tokens [] cs)
    else flushWord rev (.mark c :: tokens [] cs)

/-- A number in base `base`, most significant digit first; `none` for no digits or a wrong one. -/
def numeral (base : Nat) (cs : List Char) : Option Nat :=
  if cs.isEmpty then none
  else
    cs.foldl
      (fun acc c =>
        let v :=
          if c.isDigit then c.toNat - '0'.toNat
          else if 'a' ≤ c ∧ c ≤ 'f' then c.toNat - 'a'.toNat + 10
          else if 'A' ≤ c ∧ c ≤ 'F' then c.toNat - 'A'.toNat + 10
          else base
        acc.bind fun n => if v < base then some (base * n + v) else none)
      (some 0)

/-- `<unsigned decimal or 0x-hex>`, and `<unsigned>` alike (log 23). -/
def unsignedText : List Char → Option Int
  | '0' :: 'x' :: cs => (numeral 16 cs).map Int.ofNat
  | cs => (numeral 10 cs).map Int.ofNat

/-- `<signed decimal>`. -/
def signedText : List Char → Option Int
  | '-' :: cs => (numeral 10 cs).map fun n => -(n : Int)
  | cs => (numeral 10 cs).map Int.ofNat

/-- `<byte>`: two hex digits. -/
def byteText (cs : List Char) : Option Byte :=
  if cs.length = 2 then (numeral 16 cs).map (BitVec.ofNat 8) else none

/-- A value of a `name=value` pair: a word or a bracketed list of words. -/
inductive AsmValue
  | word (cs : List Char)
  | list (ws : List (List Char))
  deriving DecidableEq, Repr

/-- The words up to `]`. -/
def listItems : List Token → Option (List (List Char) × List Token)
  | .mark ']' :: ts => some ([], ts)
  | .word w :: ts => (listItems ts).map fun x => (w :: x.1, x.2)
  | _ => none

/-- `name=value` pairs separated by commas, and the tokens after the last one. `fuel` bounds the number of pairs. -/
def asmPairs : Nat → List Token → Option (List (List Char × AsmValue) × List Token)
  | 0, _ => none
  | fuel + 1, ts =>
    let first : Option ((List Char × AsmValue) × List Token) :=
      match ts with
      | .word n :: .mark '=' :: .word v :: rest => some ((n, .word v), rest)
      | .word n :: .mark '=' :: .mark '[' :: rest => (listItems rest).map fun x => ((n, .list x.1), x.2)
      | _ => none
    first.bind fun x =>
      match x.2 with
      | .mark ',' :: rest => (asmPairs fuel rest).map fun y => (x.1 :: y.1, y.2)
      | rest => some ([x.1], rest)

/-- The value of a name in the pairs. -/
def asmGet (ps : List (List Char × AsmValue)) (name : String) : Option AsmValue :=
  (ps.find? fun p => p.1 = name.toList).map Prod.snd

/-- Whether the pairs use only these names, each once. -/
def asmOnly (ps : List (List Char × AsmValue)) (names : List String) : Bool :=
  decide (ps.map Prod.fst).Nodup && ps.all fun p => names.any fun n => n.toList = p.1

/-- A word value. -/
def AsmValue.asWord : AsmValue → Option (List Char)
  | .word w => some w
  | .list _ => none

/-- A list of bytes. -/
def AsmValue.asBytes : AsmValue → Option (List Byte)
  | .word _ => none
  | .list ws => ws.mapM byteText

/-- `d=<1..15>`. -/
def digitsText (ps : List (List Char × AsmValue)) : Option Nat :=
  match asmGet ps "d" with
  | none => some 0
  | some v => (v.asWord.bind (numeral 10)).bind fun d => if 1 ≤ d ∧ d ≤ 15 then some d else none

/-- The record inside `f=` braces. 30_encoding R63 writes `cmd=[c0] | [c0 c1]` for TOBYTES and `cmd=[...]` for the predicates; one
or two bytes are taken for all four, so `cmd=[]` is no line. DESIGN CHOICE (log 22). -/
def frameText (ps : List (List Char × AsmValue)) : Option FrameArg := do
  let dest ← ((asmGet ps "dest").bind AsmValue.asWord).bind byteText
  let src ← ((asmGet ps "src").bind AsmValue.asWord).bind byteText
  let cmd ← (← asmGet ps "cmd").asBytes
  let payload ← match asmGet ps "payload" with
    | none => some []
    | some v => v.asBytes
  if asmOnly ps ["dest", "src", "cmd", "payload"] then
    match cmd with
    | [c0] => some ⟨dest, src, c0, none, payload⟩
    | [c0, c1] => some ⟨dest, src, c0, some c1, payload⟩
    | _ => none
  else none

/-- The line of an operation on a frame operand. -/
def frameLine (i : Instr) (f : FrameArg) : Option AsmLine :=
  match i with
  | .toBytes => some (.toBytes f)
  | .isAck => some (.isAck f)
  | .isNak => some (.isNak f)
  | .isEcho => some (.isEcho f)
  | .encFreq | .decFreq | .encLevel | .decLevel | .encOffset _ | .decOffset _ | .parse => none

/-- The line of an operation on a number or on input bytes. 30_encoding R63 writes `<unsigned>` for ENC_LEVEL; it is read as ENC_FREQ's
`<unsigned decimal or 0x-hex>`. DESIGN CHOICE (log 23). Any number of input bytes makes a line (log 17). -/
def plainLine (i : Instr) (ps : List (List Char × AsmValue)) : Option AsmLine :=
  let number (read : List Char → Option Int) : Option Int := ((asmGet ps "a").bind AsmValue.asWord).bind read
  let bytes : Option (List Byte) := (asmGet ps "ib").bind AsmValue.asBytes
  match i with
  | .encFreq => if asmOnly ps ["a"] then (number unsignedText).map .encFreq else none
  | .encLevel => if asmOnly ps ["a"] then (number unsignedText).map .encLevel else none
  | .encOffset d => if asmOnly ps ["d", "a"] then (number signedText).map (.encOffset d) else none
  | .decFreq => if asmOnly ps ["ib"] then bytes.map .decFreq else none
  | .decLevel => if asmOnly ps ["ib"] then bytes.map .decLevel else none
  | .decOffset d => if asmOnly ps ["d", "ib"] then bytes.map (.decOffset d) else none
  | .parse => if asmOnly ps ["ib"] then bytes.map .parse else none
  | .toBytes | .isAck | .isNak | .isEcho => none

/-- The line a text stands for (30_encoding R63, R64), or `none` where it is not one. -/
def assemble (text : List Char) : Option AsmLine :=
  let ts := tokens [] text
  match ts with
  | .word name :: .word ['f'] :: .mark '=' :: .mark c :: rest =>
    if c = openBrace then do
      let i ← instrNamed name 0
      let (ps, after) ← asmPairs ts.length rest
      if after = [.mark closeBrace] then (frameText ps).bind (frameLine i) else none
    else none
  | .word name :: rest => do
    let (ps, after) ← asmPairs ts.length rest
    let d ← digitsText ps
    let i ← instrNamed name d
    if after = [] then plainLine i ps else none
  | _ => none

end Sys2Proof.Machine
end

