-- ==== Sys2Proof/Safety.lean ====
section
/-! DEFINITION. The terms claims use: the machine's invariant, what a response holds, and what a request reads. -/

namespace Sys2Proof.Machine

/-! ## The invariant (00_scope R6, R7; 10_state R19, R20, R27; 60_exceptions R88) -/

/-- REQ fits its fields: buffers in canonical form and inside their sizes, lengths inside LEN_BITS. -/
structure Req.Wf (c : Config) (q : Req) : Prop where
  ibSorted : Memory.wf q.ib
  ibInside : ∀ x ∈ q.ib, x.1 < c.maxFrameBytes
  payloadSorted : Memory.wf q.fPayload
  payloadInside : ∀ x ∈ q.fPayload, x.1 < payloadBytes c
  ibLenFits : ∀ n, q.ibLen = some n → n < 2 ^ lenBits c
  fPlenFits : ∀ n, q.fPlen = some n → n < 2 ^ lenBits c

/-- A response record as 10_state R20 and R21 allow it. -/
structure Resp.Wf (c : Config) (r : Resp) : Prop where
  /-- STATUS is one of the codes the block produces (60_exceptions R88, R92). -/
  statusProduced : r.status.toNat ≤ 4
  /-- After an error every other field is ⊥ (R21). -/
  errorBare : r.status ≠ 0x00 →
    r.r = none ∧ r.obLen = none ∧ r.pfDest = none ∧ r.pfSrc = none ∧ r.pfClen = none ∧ r.pfCmd0 = none ∧ r.pfCmd1 = none ∧
      r.pfPlen = none
  /-- OB holds a byte exactly below OB_LEN, and none without OB_LEN (R20). -/
  obFilled : r.ob.map Prod.fst = List.range (r.obLen.getD 0)
  obFits : ∀ n, r.obLen = some n → n ≤ c.maxFrameBytes
  /-- PF_PAYLOAD holds a byte exactly below PF_PLEN, and none without PF_PLEN (R20). -/
  payloadFilled : r.pfPayload.map Prod.fst = List.range (r.pfPlen.getD 0)
  payloadFits : ∀ n, r.pfPlen = some n → n ≤ payloadBytes c
  /-- PF_CLEN is 1 or 2, and PF_CMD1 holds a value exactly when it is 2 (R20). -/
  clenLegal : ∀ k, r.pfClen = some k → k = 1 ∨ k = 2
  cmd1Second : r.pfCmd1.isSome ↔ r.pfClen = some 2
  /-- The PF fields come together (30_encoding R58). -/
  frameWhole : r.pfDest.isSome = r.pfPlen.isSome ∧ r.pfSrc.isSome = r.pfPlen.isSome ∧ r.pfClen.isSome = r.pfPlen.isSome ∧
    r.pfCmd0.isSome = r.pfPlen.isSome
  /-- On success exactly one kind of result holds values: a number, bytes, or a frame (30_encoding R58). -/
  oneResult : r.status = 0x00 →
    (r.r.isSome ∧ r.obLen = none ∧ r.pfPlen = none) ∨ (r.r = none ∧ r.obLen.isSome ∧ r.pfPlen = none) ∨
      (r.r = none ∧ r.obLen = none ∧ r.pfPlen.isSome)

/-- A request sampled at the port fits its fields. -/
def Port.Wf (c : Config) : Port → Prop
  | .ready => True
  | .busy q _ => q.Wf c
  | .answered => True

/-- The machine's invariant. -/
structure State.Inv (s : State) : Prop where
  cfgWf : s.cfg.Wf
  reqWf : s.req.Wf s.cfg
  respWf : ∀ r, s.resp = some r → r.Wf s.cfg
  portWf : s.port.Wf s.cfg

/-! ## What a response holds (10_state R21, 30_encoding R58) -/

/-- No PF field holds a value. -/
def Resp.NoFrame (r : Resp) : Prop :=
  r.pfDest = none ∧ r.pfSrc = none ∧ r.pfClen = none ∧ r.pfCmd0 = none ∧ r.pfCmd1 = none ∧ r.pfPlen = none ∧
    ∀ j, r.pfPayload.read j = none

/-- Neither OB_LEN nor any byte of OB holds a value. -/
def Resp.NoBytes (r : Resp) : Prop := r.obLen = none ∧ ∀ j, r.ob.read j = none

/-- STATUS is the code, and every other field is ⊥. -/
def Resp.IsBare (r : Resp) (code : Byte) : Prop := r.status = code ∧ r.r = none ∧ r.NoBytes ∧ r.NoFrame

/-- STATUS is OK, R is the number, and every other field is ⊥. -/
def Resp.IsNumber (r : Resp) (v : Word64) : Prop := r.status = 0x00 ∧ r.r = some v ∧ r.NoBytes ∧ r.NoFrame

/-- STATUS is OK, OB holds exactly the bytes, OB_LEN counts them, and every other field is ⊥. -/
def Resp.IsBytes (r : Resp) (bs : List Byte) : Prop :=
  r.status = 0x00 ∧ r.r = none ∧ r.obLen = some bs.length ∧ (∀ j, r.ob.read j = bs[j]?) ∧ r.NoFrame

/-- STATUS is OK, the PF fields hold exactly this frame (one or two command bytes), and every other field is ⊥. -/
def Resp.IsFrame (r : Resp) (dest src : Byte) (cmd payload : List Byte) : Prop :=
  r.status = 0x00 ∧ r.r = none ∧ r.NoBytes ∧ r.pfDest = some dest ∧ r.pfSrc = some src ∧
    r.pfClen = some (BitVec.ofNat 2 cmd.length) ∧ r.pfCmd0 = cmd[0]? ∧ r.pfCmd1 = cmd[1]? ∧
    r.pfPlen = some payload.length ∧ ∀ j, r.pfPayload.read j = payload[j]?

/-- The outcome is a next state that differs from `s` in RESP alone, and RESP meets `P`. -/
def AnswersWith (s : State) (o : Host.Outcome State Fault Refusal) (P : Resp → Prop) : Prop :=
  ∃ r, o = .next { s with resp := some r } ∧ P r

/-! ## What a request holds and reads (30_encoding R57) -/

/-- IB holds exactly the bytes below IB_LEN, which counts them. -/
def Req.HoldsInput (q : Req) (bs : List Byte) : Prop :=
  q.ibLen = some bs.length ∧ ∀ j, j < bs.length → q.ib.read j = bs[j]?

/-- The encoder gives these bytes for the operand, in every state (40_bcd R72). -/
def EncodesTo (enc : Instr) (a : Word64) (bs : List Byte) : Prop :=
  ∀ s : State, s.req.a = some a → AnswersWith s (exec enc s) (·.IsBytes bs)

/-- The decoder gives this number for the input bytes, in every instance and state (40_bcd R72). -/
def DecodesTo (dec : Instr) (bs : List Byte) (v : Word64) : Prop :=
  ∀ s : State, s.cfg.Wf → s.req.HoldsInput bs → AnswersWith s (exec dec s) (·.IsNumber v)

/-- The host has copied a response's OB into IB, and OB_LEN into IB_LEN (70_reset R107). -/
def Req.TakesOutput (q : Req) (r : Resp) : Prop :=
  q.ibLen = r.obLen ∧ ∀ n, r.obLen = some n → ∀ j, j < n → q.ib.read j = r.ob.read j

/-- The frame operand holds this frame: one or two command bytes, F_CMD1 only looked at when there are two (10_state R19). -/
def Req.HoldsFrame (q : Req) (dest src : Byte) (cmd payload : List Byte) : Prop :=
  q.fDest = some dest ∧ q.fSrc = some src ∧ (cmd.length = 1 ∨ cmd.length = 2) ∧
    q.fClen = some (BitVec.ofNat 2 cmd.length) ∧ q.fCmd0 = cmd[0]? ∧ (cmd.length = 2 → q.fCmd1 = cmd[1]?) ∧
    q.fPlen = some payload.length ∧ ∀ j, j < payload.length → q.fPayload.read j = payload[j]?

/-- The host's duty of 10_state R31: every field the operation reads holds a value (30_encoding R57). A buffer is read below its
length, and only inside its size. -/
def Req.Written (c : Config) (q : Req) : Instr → Prop
  | .encFreq | .encLevel | .encOffset _ => q.a.isSome
  | .decFreq | .decLevel | .decOffset _ | .parse =>
    q.ibLen.isSome ∧ ∀ n, q.ibLen = some n → ∀ j, j < n → j < c.maxFrameBytes → (q.ib.read j).isSome
  | .toBytes =>
    q.fDest.isSome ∧ q.fSrc.isSome ∧ q.fClen.isSome ∧ q.fCmd0.isSome ∧ (q.fClen = some 2 → q.fCmd1.isSome) ∧
      q.fPlen.isSome ∧ ∀ n, q.fPlen = some n → ∀ j, j < n → j < payloadBytes c → (q.fPayload.read j).isSome
  | .isAck | .isNak => q.fClen.isSome ∧ q.fCmd0.isSome ∧ q.fPlen.isSome
  | .isEcho => q.fDest.isSome ∧ q.fSrc.isSome ∧ q.fClen.isSome ∧ q.fPlen.isSome

/-- Two request register sets agree on every field the operation reads (30_encoding R57); they may differ in any other. -/
def Req.AgreeOn (q q' : Req) : Instr → Prop
  | .encFreq | .encLevel | .encOffset _ => q.a = q'.a
  | .decFreq | .decLevel | .decOffset _ | .parse =>
    q.ibLen = q'.ibLen ∧ ∀ n, q.ibLen = some n → ∀ j, j < n → q.ib.read j = q'.ib.read j
  | .toBytes =>
    q.fDest = q'.fDest ∧ q.fSrc = q'.fSrc ∧ q.fClen = q'.fClen ∧ q.fCmd0 = q'.fCmd0 ∧
      (q.fClen = some 2 → q.fCmd1 = q'.fCmd1) ∧ q.fPlen = q'.fPlen ∧
      ∀ n, q.fPlen = some n → ∀ j, j < n → q.fPayload.read j = q'.fPayload.read j
  | .isAck | .isNak => q.fClen = q'.fClen ∧ q.fCmd0 = q'.fCmd0 ∧ q.fPlen = q'.fPlen
  | .isEcho => q.fDest = q'.fDest ∧ q.fSrc = q'.fSrc ∧ q.fClen = q'.fClen ∧ q.fPlen = q'.fPlen

/-- Whether the host has written the field since reset (10_state R32, R33). -/
def Req.hasValue (q : Req) (f : ReqField) : Bool := (q.read f).isSome

/-- F_CLEN and F_PLEN were written, and WF_F fails on them (30_encoding R60). -/
def FrameOperandBad (s : State) : Prop :=
  ∃ (k : BitVec 2) (n : Nat), s.req.fClen = some k ∧ s.req.fPlen = some n ∧
    ¬((k.toNat = 1 ∨ k.toNat = 2) ∧ 5 + k.toNat + n ≤ s.cfg.maxFrameBytes)

/-- The frame operand's lengths were written, and WF_F holds on them (30_encoding R60). -/
def FrameOperandGood (s : State) (k : BitVec 2) : Prop :=
  ∃ n : Nat, s.req.fClen = some k ∧ s.req.fPlen = some n ∧ (k.toNat = 1 ∨ k.toNat = 2) ∧
    5 + k.toNat + n ≤ s.cfg.maxFrameBytes

/-- Split-consistency of a frame operand (41_frame R85). -/
def SplitConsistent (c : Config) (cmd payload : List Byte) : Prop :=
  (cmd.length = 2 → ∀ x, cmd[0]? = some x → x ∈ c.subcmdCodes) ∧
    (cmd.length = 1 → (∃ x, cmd[0]? = some x ∧ x ∈ c.subcmdCodes) → payload = [])

/-- Everything but RESP is as before: every field of REQ, every byte of the request buffers, the parameters, the port and the
host's side. -/
def SameButResp (s t : State) : Prop :=
  t.cfg = s.cfg ∧ t.port = s.port ∧ t.host = s.host ∧ t.seen = s.seen ∧ t.edges = s.edges ∧ t.req.cmd = s.req.cmd ∧
    t.req.a = s.req.a ∧ t.req.ibLen = s.req.ibLen ∧ t.req.fDest = s.req.fDest ∧ t.req.fSrc = s.req.fSrc ∧
    t.req.fClen = s.req.fClen ∧ t.req.fCmd0 = s.req.fCmd0 ∧ t.req.fCmd1 = s.req.fCmd1 ∧ t.req.fPlen = s.req.fPlen ∧
    (∀ j, t.req.ib.read j = s.req.ib.read j) ∧ ∀ j, t.req.fPayload.read j = s.req.fPayload.read j

/-- Whether an action is a clock edge. -/
def HostAction.isClock : HostAction → Bool
  | .clock _ => true
  | .write _ _ | .issue | .read _ | .copy _ _ | .reset => false

/-- How many clock edges a list of actions has (10_state R30). -/
def clockEdges (l : List HostAction) : Nat := l.countP HostAction.isClock

/-! ## Runs (70_reset R109, R110) -/

/-- Whether an action asserts reset (70_reset R102). -/
def HostAction.isReset : HostAction → Bool
  | .reset => true
  | .clock p => p.rst
  | .write _ _ | .issue | .read _ | .copy _ _ => false

/-- Where a run begins: an instance with these parameters right after reset, and the finite sequence of host actions. -/
def runStart (c : Config) (actions : List HostAction) : State := { State.reset with cfg := c, host := actions }

/-- The end of a run: the host does nothing more, and the last accepted request has its response. The final state is RESP then.
That reads, writes and edges after the last response still belong to the run is the model's reading (log 21). -/
def State.runEnded (s : State) : Prop := s.host = [] ∧ s.port.waiting = false

/-- The request a step answers, if it answers one: the fields sampled at acceptance, or REQ now for a request issued as one
transaction. -/
def State.request (s : State) : Req :=
  match s.port with
  | .busy q _ => q
  | .ready | .answered => s.req

/-- Whether the step from `s` to `t` produced a response: the host issued a transaction, or a waiting request was answered. -/
def producesResponse (s t : State) : Bool :=
  decide (s.host.head? = some .issue) || (s.port.waiting && t.port.rspValid)

/-- The responses of the first steps of a run, oldest first. -/
def responsesOf : Nat → State → List Resp
  | 0, _ => []
  | k + 1, s =>
    match step s with
    | .next t => (if producesResponse s t then t.resp.toList else []) ++ responsesOf k t
    | .fault _ => []
    | .refused _ => []

/-! ## Digits and the fields an operation writes -/

/-- The decimal digits of a byte pair are legal: no nibble exceeds 9 (00_scope R11). -/
def LegalPair (b : Byte) : Prop := b.toNat % 16 ≤ 9 ∧ b.toNat / 16 ≤ 9

/-- `nib(k)` of 40_bcd R71: the low nibble of byte k/2 when k is even, else the high nibble of byte (k-1)/2. -/
def nibbleOf (b : List Byte) (k : Nat) : Nat :=
  if k % 2 = 0 then (b.getD (k / 2) 0).toNat % 16 else (b.getD ((k - 1) / 2) 0).toNat / 16

/-- The magnitude of 40_bcd R71: the sum of `nib(k) * 10^k` for k from 0 to d-1. -/
def magnitudeOf (b : List Byte) (d : Nat) : Nat := ((List.range d).map fun k => nibbleOf b k * 10 ^ k).sum

/-- What makes DEC_OFFSET reject a sequence of the right length as MalformedData, with sign byte b[n-1] (40_bcd R71). -/
def OffsetRejected (b : List Byte) (d : Nat) : Prop :=
  (∃ j, j < d / 2 ∧ ¬LegalPair (b.getD j 0)) ∨ (b.getD (d / 2) 0).toNat / 16 % 8 ≠ 0 ∨
    (d % 2 = 1 ∧ 9 < (b.getD (d / 2) 0).toNat % 16) ∨ (d % 2 = 0 ∧ (b.getD (d / 2) 0).toNat % 16 ≠ 0) ∨
    (128 ≤ (b.getD (d / 2) 0).toNat ∧ magnitudeOf b d = 0)

/-- The fields an operation writes on success (30_encoding R58), each buffer filled exactly below its length. -/
def FieldsWritten (q : Req) (r : Resp) : Instr → Prop
  | .encFreq => r.r = none ∧ r.NoFrame ∧ r.obLen = some 5 ∧ ∀ j, (r.ob.read j).isSome ↔ j < 5
  | .encLevel => r.r = none ∧ r.NoFrame ∧ r.obLen = some 2 ∧ ∀ j, (r.ob.read j).isSome ↔ j < 2
  | .encOffset d => r.r = none ∧ r.NoFrame ∧ r.obLen = some (d / 2 + 1) ∧ ∀ j, (r.ob.read j).isSome ↔ j < d / 2 + 1
  | .toBytes => r.r = none ∧ r.NoFrame ∧ ∃ (k : BitVec 2) (n : Nat), q.fClen = some k ∧ q.fPlen = some n ∧
      r.obLen = some (5 + k.toNat + n) ∧ ∀ j, (r.ob.read j).isSome ↔ j < 5 + k.toNat + n
  | .decFreq | .decLevel | .decOffset _ => r.r.isSome ∧ r.NoBytes ∧ r.NoFrame
  | .isAck | .isNak | .isEcho => (r.r = some 0 ∨ r.r = some 1) ∧ r.NoBytes ∧ r.NoFrame
  | .parse => r.r = none ∧ r.NoBytes ∧ r.pfDest.isSome ∧ r.pfSrc.isSome ∧ r.pfCmd0.isSome ∧
      (r.pfClen = some 1 ∨ r.pfClen = some 2) ∧ (r.pfCmd1.isSome ↔ r.pfClen = some 2) ∧
      ∃ n, r.pfPlen = some n ∧ ∀ j, (r.pfPayload.read j).isSome ↔ j < n

end Sys2Proof.Machine
end

