-- ==== Sys2Proof/Certificates/Slice0/Obligations.lean ====
section
/-! DEFINITION. The statements for the provers. Each docstring names the rule of spec/ it formalises. -/

open Sys2Proof Sys2Proof.Machine

/-! ## Reset and the invariant -/

/-- 10_state R32: after reset RESP = NONE, no REQ field holds a value, a request that reads one faults, the parameters are
unchanged, and `req_ready` = 1, `rsp_valid` = 0. -/
def Obligations.ResetLeavesNoValue : Prop :=
  (∀ f, State.reset.respValue f = none) ∧ (∀ f, State.reset.req.hasValue f = false) ∧ State.reset.port.reqReady = true ∧
    State.reset.port.rspValid = false ∧
    ∀ s : State, ∃ t, runAction .reset s = .next t ∧ t.cfg = s.cfg ∧ (∀ f, t.respValue f = none) ∧
      (∀ f, t.req.hasValue f = false) ∧ t.port.reqReady = true ∧ t.port.rspValid = false ∧
      (∀ i, i ≠ .encOffset 0 → i ≠ .decOffset 0 → ∃ f, exec i t = .fault (.unwrittenReqField f)) ∧
      transaction t = .fault (.unwrittenReqField .cmd)

/-- 70_reset R102: reset at any time, from any port phase, abandons an accepted request (nothing is outstanding afterwards),
and with `rst` asserted on a clock edge nothing is accepted whatever the other pins say. That the edge with `rst` still asserted
already leaves the state of the release, `req_ready` = 1 included, is the model's choice (log 10). -/
def Obligations.ResetAbandonsRequest : Prop :=
  ∀ (s : State) (rest : List HostAction),
    (s.host = .reset :: rest →
      step s = .next { s with host := rest, req := Req.unwritten, resp := none, port := .ready }) ∧
    (∀ p : Pins, p.rst = true → s.host = .clock p :: rest →
      step s = .next { s with host := rest, req := Req.unwritten, resp := none, port := .ready, edges := s.edges + 1 })

/-- The machine's invariant holds right after reset. -/
def Obligations.ResetMeetsInvariant : Prop := State.reset.Inv

/-- Every step keeps the invariant: buffers stay canonical and inside their sizes, lengths fit LEN_BITS, and every response
record is one 10_state R20 and R21 allow. -/
def Obligations.StepKeepsInvariant : Prop :=
  ∀ s t : State, s.Inv → step s = .next t → t.Inv

/-! ## The command word -/

/-- Decoding an encoded well-formed instruction gives it back, with every digit count. -/
def Obligations.DecodeOfEncodeIsInstr : Prop :=
  ∀ i : Instr, i.wf = true → decode (encode i) = .ok i

/-- A command word that decodes is the encoding of the well-formed instruction it decodes to: one word for each. -/
def Obligations.EncodeOfDecodeIsWord : Prop :=
  ∀ (w : CmdWord) (i : Instr), decode w = .ok i → i.wf = true ∧ encode i = w

/-- Words written out from the table of 30_encoding R52 decode to their operations. -/
def Obligations.SampleWordsDecode : Prop :=
  decode 0b0000000000000001#16 = .ok .encFreq ∧ decode 0b0000000000000100#16 = .ok .decLevel ∧
    decode 0b0000000001000101#16 = .ok (.encOffset 4) ∧ decode 0b0000000011110110#16 = .ok (.decOffset 15) ∧
    decode 0b0000000000000111#16 = .ok .toBytes ∧ decode 0b0000000000001011#16 = .ok .isEcho

/-- 30_encoding R55, R56, R62: a word with RSV ≠ 0, with a reserved OP, or with DIG set on an operation without digits raises
IllegalOperation whatever the other fields of REQ hold, and every other word selects one of the eleven operations. -/
def Obligations.UnassignedWordRaisesIllegalOperation : Prop :=
  ∀ (s : State) (rest : List HostAction) (w : CmdWord),
    s.host = .issue :: rest → s.port.reqReady = true → s.req.cmd = some w →
    let op := w.toNat % 16
    let dig := w.toNat / 16 % 16
    let illegal := w.toNat / 256 ≠ 0 ∨ op = 0x0 ∨ 0xC ≤ op ∨ (op ≠ 0x5 ∧ op ≠ 0x6 ∧ dig ≠ 0)
    (illegal → AnswersWith { s with host := rest } (step s) (·.IsBare 0x04)) ∧
      (¬illegal → ∃ i, decode w = .ok i ∧ i.opCode = op ∧ i.digits = dig ∧ step s = exec i { s with host := rest })

/-- When the next thing that happens is a request and its command word decodes, the step is that operation's meaning. -/
def Obligations.StepRunsDecodedInstruction : Prop :=
  ∀ (s : State) (rest : List HostAction) (w : CmdWord) (i : Instr),
    s.host = .issue :: rest → s.port.reqReady = true → s.req.cmd = some w → decode w = .ok i →
    step s = exec i { s with host := rest }

/-- A word placed by `withFetchWord` is run by the very next step (the model's convention, log 7). -/
def Obligations.PlacedWordRunsNext : Prop :=
  ∀ (s : State) (w : Nat) (i : Instr), decodeTableWord 16 w = some i →
    ∃ q : Req, q.cmd = some (encode i) ∧ step (s.withFetchWord 16 w) = exec i { s with req := q, port := .ready }

/-- 60_exceptions R101: between requests the block is idle and RESP keeps its value. -/
def Obligations.IdleKeepsState : Prop :=
  ∀ s : State, s.host = [] → s.port.waiting = false → step s = .next s

/-! ## The BCD operations -/

/-- 40_bcd R65: ENC_FREQ, on every value of A. -/
def Obligations.EncFreqAnswers : Prop :=
  encode .encFreq = 0x0001 ∧
  ∀ (s : State) (a : Word64), s.req.a = some a →
    (a.toNat ≤ 9999999999 → AnswersWith s (exec .encFreq s) (·.IsBytes ((List.range 5).map fun j =>
      BitVec.ofNat 8 (16 * (a.toNat / 10 ^ (2 * j + 1) % 10) + a.toNat / 10 ^ (2 * j) % 10)))) ∧
    (9999999999 < a.toNat → AnswersWith s (exec .encFreq s) (·.IsBare 0x03))

/-- 40_bcd R66: DEC_FREQ, on every length and every five bytes. -/
def Obligations.DecFreqAnswers : Prop :=
  encode .decFreq = 0x0002 ∧
  ∀ (s : State) (len : Nat), s.req.ibLen = some len →
    (s.cfg.maxFrameBytes < len → AnswersWith s (exec .decFreq s) (·.IsBare 0x03)) ∧
    (len ≤ s.cfg.maxFrameBytes → len ≠ 5 → AnswersWith s (exec .decFreq s) (·.IsBare 0x01)) ∧
    (len ≤ s.cfg.maxFrameBytes → ∀ b : List Byte, b.length = 5 → s.req.HoldsInput b →
      ((∃ x ∈ b, ¬LegalPair x) → AnswersWith s (exec .decFreq s) (·.IsBare 0x01)) ∧
      ((∀ x ∈ b, LegalPair x) → AnswersWith s (exec .decFreq s) (·.IsNumber (BitVec.ofNat 64
        ((List.range 5).map fun j => (10 * ((b.getD j 0).toNat / 16) + (b.getD j 0).toNat % 16) * 100 ^ j).sum))))

/-- 40_bcd R67: ENC_LEVEL, on every value of A. -/
def Obligations.EncLevelAnswers : Prop :=
  encode .encLevel = 0x0003 ∧
  ∀ (s : State) (a : Word64), s.req.a = some a →
    (a.toNat ≤ 255 → AnswersWith s (exec .encLevel s) (·.IsBytes
      [BitVec.ofNat 8 (16 * (a.toNat / 10 % 10) + a.toNat % 10), BitVec.ofNat 8 (a.toNat / 100 % 10)])) ∧
    (255 < a.toNat → AnswersWith s (exec .encLevel s) (·.IsBare 0x03))

/-- 40_bcd R68: DEC_LEVEL, on every length and every two bytes. -/
def Obligations.DecLevelAnswers : Prop :=
  encode .decLevel = 0x0004 ∧
  ∀ (s : State) (len : Nat), s.req.ibLen = some len →
    (s.cfg.maxFrameBytes < len → AnswersWith s (exec .decLevel s) (·.IsBare 0x03)) ∧
    (len ≤ s.cfg.maxFrameBytes → len ≠ 2 → AnswersWith s (exec .decLevel s) (·.IsBare 0x01)) ∧
    (len ≤ s.cfg.maxFrameBytes → ∀ b0 b1 : Byte, s.req.HoldsInput [b0, b1] →
      let v := 1000 * (b1.toNat / 16) + 100 * (b1.toNat % 16) + 10 * (b0.toNat / 16) + b0.toNat % 16
      (¬LegalPair b0 ∨ ¬LegalPair b1 ∨ 255 < v → AnswersWith s (exec .decLevel s) (·.IsBare 0x01)) ∧
      (LegalPair b0 → LegalPair b1 → v ≤ 255 → AnswersWith s (exec .decLevel s) (·.IsNumber (BitVec.ofNat 64 v))))

/-- 40_bcd R69, R70: ENC_OFFSET, on every digit count and every value of A. -/
def Obligations.EncOffsetAnswers : Prop :=
  ∀ (s : State) (d : Nat), d < 16 →
    (encode (.encOffset d)).toNat = 16 * d + 5 ∧
    (d = 0 → AnswersWith s (exec (.encOffset d) s) (·.IsBare 0x03)) ∧
    ∀ a : Word64, s.req.a = some a → d ≠ 0 →
      (10 ^ d - 1 < a.toInt.natAbs → AnswersWith s (exec (.encOffset d) s) (·.IsBare 0x03)) ∧
      (a.toInt.natAbs ≤ 10 ^ d - 1 → AnswersWith s (exec (.encOffset d) s) (·.IsBytes
        ((List.range (d / 2 + 1)).map fun j => BitVec.ofNat 8
          (16 * (if 2 * j + 1 < d then a.toInt.natAbs / 10 ^ (2 * j + 1) % 10 else 0) +
            (if 2 * j < d then a.toInt.natAbs / 10 ^ (2 * j) % 10 else 0) +
            (if j = d / 2 ∧ a.toInt < 0 then 128 else 0)))))

/-- 40_bcd R71: DEC_OFFSET, on every digit count, length and bytes. -/
def Obligations.DecOffsetAnswers : Prop :=
  ∀ (s : State) (d : Nat), d < 16 →
    (encode (.decOffset d)).toNat = 16 * d + 6 ∧
    (d = 0 → AnswersWith s (exec (.decOffset d) s) (·.IsBare 0x03)) ∧
    ∀ len : Nat, s.req.ibLen = some len → d ≠ 0 →
      (s.cfg.maxFrameBytes < len → AnswersWith s (exec (.decOffset d) s) (·.IsBare 0x03)) ∧
      (len ≤ s.cfg.maxFrameBytes → len ≠ d / 2 + 1 → AnswersWith s (exec (.decOffset d) s) (·.IsBare 0x01)) ∧
      (len ≤ s.cfg.maxFrameBytes → ∀ b : List Byte, b.length = d / 2 + 1 → s.req.HoldsInput b →
        (OffsetRejected b d → AnswersWith s (exec (.decOffset d) s) (·.IsBare 0x01)) ∧
        (¬OffsetRejected b d → AnswersWith s (exec (.decOffset d) s) (·.IsNumber (BitVec.ofInt 64
          (if 128 ≤ (b.getD (d / 2) 0).toNat then -(magnitudeOf b d : Int) else (magnitudeOf b d : Int))))))

/-- 40_bcd R72, frequency: DEC_FREQ of ENC_FREQ's output gives the frequency, and ENC_FREQ of what DEC_FREQ accepts gives its
input. -/
def Obligations.FreqCodecsAreInverse : Prop :=
  (∀ (s : State) (a : Word64), s.req.a = some a → a.toNat ≤ 9999999999 →
    AnswersWith s (exec .encFreq s) fun r => r.status = 0x00 ∧
      ∀ u : State, 5 ≤ u.cfg.maxFrameBytes → u.req.TakesOutput r → AnswersWith u (exec .decFreq u) (·.IsNumber a)) ∧
  (∀ (s t : State) (v : Word64) (r : Resp), exec .decFreq s = .next t → t.resp = some r → r.status = 0x00 → r.r = some v →
    ∀ u : State, u.req.a = some v → AnswersWith u (exec .encFreq u) fun e => e.status = 0x00 ∧ s.req.TakesOutput e)

/-- 40_bcd R72, level: DEC_LEVEL of ENC_LEVEL's output gives the level, and ENC_LEVEL of what DEC_LEVEL accepts gives its input. -/
def Obligations.LevelCodecsAreInverse : Prop :=
  (∀ (s : State) (a : Word64), s.req.a = some a → a.toNat ≤ 255 →
    AnswersWith s (exec .encLevel s) fun r => r.status = 0x00 ∧
      ∀ u : State, 2 ≤ u.cfg.maxFrameBytes → u.req.TakesOutput r → AnswersWith u (exec .decLevel u) (·.IsNumber a)) ∧
  (∀ (s t : State) (v : Word64) (r : Resp), exec .decLevel s = .next t → t.resp = some r → r.status = 0x00 → r.r = some v →
    ∀ u : State, u.req.a = some v → AnswersWith u (exec .encLevel u) fun e => e.status = 0x00 ∧ s.req.TakesOutput e)

/-- 40_bcd R72, offset: with the same digit count from 1 to 15, DEC_OFFSET of ENC_OFFSET's output gives the offset back, and
ENC_OFFSET of what DEC_OFFSET accepts gives its input; the output of 0 is all zero bytes. -/
def Obligations.OffsetCodecsAreInverse : Prop :=
  ∀ d : Nat, 1 ≤ d → d ≤ 15 →
  (∀ (s : State) (a : Word64), s.req.a = some a → a.toInt.natAbs ≤ 10 ^ d - 1 →
    AnswersWith s (exec (.encOffset d) s) fun r => r.status = 0x00 ∧ (a = 0 → r.IsBytes (List.replicate (d / 2 + 1) 0x00)) ∧
      ∀ u : State, d / 2 + 1 ≤ u.cfg.maxFrameBytes → u.req.TakesOutput r →
        AnswersWith u (exec (.decOffset d) u) (·.IsNumber a)) ∧
  (∀ (s t : State) (v : Word64) (r : Resp), exec (.decOffset d) s = .next t → t.resp = some r → r.status = 0x00 →
    r.r = some v →
    ∀ u : State, u.req.a = some v → AnswersWith u (exec (.encOffset d) u) fun e => e.status = 0x00 ∧ s.req.TakesOutput e)

/-! ## The frame operations -/

/-- 41_frame R76, R77, R78: TOBYTES gives the wire form with every content byte verbatim, and InvalidParameter where WF_F fails. -/
def Obligations.ToBytesAnswers : Prop :=
  encode .toBytes = 0x0007 ∧
  ∀ s : State,
    (FrameOperandBad s → AnswersWith s (exec .toBytes s) (·.IsBare 0x03)) ∧
    (∀ (dest src : Byte) (cmd payload : List Byte), s.req.HoldsFrame dest src cmd payload →
      5 + cmd.length + payload.length ≤ s.cfg.maxFrameBytes →
      AnswersWith s (exec .toBytes s)
        (·.IsBytes ([0xFE, 0xFE] ++ [dest] ++ [src] ++ cmd ++ payload ++ [0xFD])))

/-- 41_frame R80, R81: PARSE. It rejects a length beyond the buffer, then a short frame, a wrong preamble byte, or a last byte
that is no terminator. A complete frame's body (the bytes between source and terminator) starts with `c0`: the command has two
bytes exactly when `c0` is a sub-command code and another byte follows it. No other byte is examined. -/
def Obligations.ParseAnswers : Prop :=
  encode .parse = 0x0008 ∧
  (∀ (s : State) (len : Nat), s.req.ibLen = some len →
    (s.cfg.maxFrameBytes < len → AnswersWith s (exec .parse s) (·.IsBare 0x03)) ∧
    (len ≤ s.cfg.maxFrameBytes → len < 6 → AnswersWith s (exec .parse s) (·.IsBare 0x02)) ∧
    (len ≤ s.cfg.maxFrameBytes → ∀ b : List Byte, s.req.HoldsInput b →
      b.getD 0 0 ≠ 0xFE ∨ b.getD 1 0 ≠ 0xFE ∨ b.getD (len - 1) 0 ≠ 0xFD → AnswersWith s (exec .parse s) (·.IsBare 0x02))) ∧
  (∀ (s : State) (dest src c0 : Byte) (more : List Byte),
    s.req.HoldsInput ([0xFE, 0xFE, dest, src, c0] ++ more ++ [0xFD]) → 6 + more.length ≤ s.cfg.maxFrameBytes →
    ((c0 ∉ s.cfg.subcmdCodes ∨ more = []) → AnswersWith s (exec .parse s) (·.IsFrame dest src [c0] more)) ∧
    (∀ (c1 : Byte) (rest : List Byte), c0 ∈ s.cfg.subcmdCodes → more = c1 :: rest →
      AnswersWith s (exec .parse s) (·.IsFrame dest src [c0, c1] rest)))

/-- 41_frame R82: IS_ACK: a single-byte command 0xFB; the payload and the addresses are not examined. -/
def Obligations.IsAckAnswers : Prop :=
  encode .isAck = 0x0009 ∧
  ∀ s : State,
    (FrameOperandBad s → AnswersWith s (exec .isAck s) (·.IsBare 0x03)) ∧
    (∀ (k : BitVec 2) (c0 : Byte), FrameOperandGood s k → s.req.fCmd0 = some c0 →
      AnswersWith s (exec .isAck s) (·.IsNumber (if k = 1 ∧ c0 = 0xFB then 1 else 0)))

/-- 41_frame R83: IS_NAK: a single-byte command 0xFA. IS_ACK and IS_NAK never both give 1 for one frame operand. -/
def Obligations.IsNakAnswers : Prop :=
  encode .isNak = 0x000A ∧
  ∀ s : State,
    (FrameOperandBad s → AnswersWith s (exec .isNak s) (·.IsBare 0x03)) ∧
    (∀ (k : BitVec 2) (c0 : Byte), FrameOperandGood s k → s.req.fCmd0 = some c0 →
      AnswersWith s (exec .isNak s) (·.IsNumber (if k = 1 ∧ c0 = 0xFA then 1 else 0))) ∧
    (∀ t : State, exec .isAck s = .next t → t.respValue .r = some 1 →
      ∃ u, exec .isNak s = .next u ∧ u.respValue .r = some 0)

/-- 41_frame R84: IS_ECHO: the source is the controller and the destination is not. -/
def Obligations.IsEchoAnswers : Prop :=
  encode .isEcho = 0x000B ∧
  ∀ s : State,
    (FrameOperandBad s → AnswersWith s (exec .isEcho s) (·.IsBare 0x03)) ∧
    (∀ (k : BitVec 2) (dest src : Byte), FrameOperandGood s k → s.req.fDest = some dest → s.req.fSrc = some src →
      AnswersWith s (exec .isEcho s)
        (·.IsNumber (if src = s.cfg.controllerAddr ∧ dest ≠ s.cfg.controllerAddr then 1 else 0)))

/-- 41_frame R85: PARSE of TOBYTES's output gives every split-consistent frame operand back, and what PARSE gives on an input it
accepts is split-consistent, and TOBYTES of it reproduces that input byte for byte. -/
def Obligations.FrameCodecsAreInverse : Prop :=
  (∀ (s : State) (dest src : Byte) (cmd payload : List Byte),
    s.req.HoldsFrame dest src cmd payload → 5 + cmd.length + payload.length ≤ s.cfg.maxFrameBytes →
    SplitConsistent s.cfg cmd payload →
    AnswersWith s (exec .toBytes s) fun r => r.status = 0x00 ∧
      ∀ u : State, u.cfg = s.cfg → u.req.TakesOutput r →
        AnswersWith u (exec .parse u) (·.IsFrame dest src cmd payload)) ∧
  (∀ (s t : State) (b : List Byte) (r : Resp),
    s.req.HoldsInput b → exec .parse s = .next t → t.resp = some r → r.status = 0x00 →
    ∃ (dest src : Byte) (cmd payload : List Byte), (cmd.length = 1 ∨ cmd.length = 2) ∧ r.IsFrame dest src cmd payload ∧
      SplitConsistent s.cfg cmd payload ∧
      ∀ u : State, u.cfg = s.cfg → u.req.HoldsFrame dest src cmd payload → AnswersWith u (exec .toBytes u) (·.IsBytes b))

/-- 41_frame R86: the known edge. A frame that is not split-consistent is still built by TOBYTES and split by PARSE: a one-byte
command that is a sub-command code, with a payload, comes back as a two-byte command; a two-byte command whose first byte is no
code comes back as a one-byte command. -/
def Obligations.KnownEdgeIsKept : Prop :=
  (∀ (s : State) (dest src c0 p0 : Byte) (ps : List Byte),
    s.req.HoldsFrame dest src [c0] (p0 :: ps) → 7 + ps.length ≤ s.cfg.maxFrameBytes → c0 ∈ s.cfg.subcmdCodes →
    AnswersWith s (exec .toBytes s) fun r => r.IsBytes ([0xFE, 0xFE, dest, src, c0, p0] ++ ps ++ [0xFD]) ∧
      ∀ u : State, u.cfg = s.cfg → u.req.TakesOutput r → AnswersWith u (exec .parse u) (·.IsFrame dest src [c0, p0] ps)) ∧
  (∀ (s : State) (dest src c0 c1 : Byte) (payload : List Byte),
    s.req.HoldsFrame dest src [c0, c1] payload → 7 + payload.length ≤ s.cfg.maxFrameBytes → c0 ∉ s.cfg.subcmdCodes →
    AnswersWith s (exec .toBytes s) fun r => r.IsBytes ([0xFE, 0xFE, dest, src, c0, c1] ++ payload ++ [0xFD]) ∧
      ∀ u : State, u.cfg = s.cfg → u.req.TakesOutput r →
        AnswersWith u (exec .parse u) (·.IsFrame dest src [c0] (c1 :: payload)))

/-! ## Frames: what an operation leaves unchanged -/

/-- Frame of the operations that store bytes (ENC_FREQ, ENC_LEVEL, ENC_OFFSET, TOBYTES): REQ, its buffers, the parameters, the
port and the host's side are unchanged; RESP is replaced whole, so of OB only the bytes below the new OB_LEN hold values, and no
other RESP field does but STATUS. -/
def Obligations.StoringOperationsFrame : Prop :=
  ∀ (s t : State) (i : Instr), (i = .encFreq ∨ i = .encLevel ∨ (∃ d, d < 16 ∧ i = .encOffset d) ∨ i = .toBytes) →
    exec i s = .next t →
    SameButResp s t ∧ ∃ r, t.resp = some r ∧ r.r = none ∧ r.NoFrame ∧
      ∀ j, r.obLen.getD 0 ≤ j → r.ob.read j = none

/-- Frame of the operations that return a number (DEC_FREQ, DEC_LEVEL, DEC_OFFSET, IS_ACK, IS_NAK, IS_ECHO): nothing but RESP
changes, and no byte of OB or PF_PAYLOAD holds a value afterwards. -/
def Obligations.NumberOperationsFrame : Prop :=
  ∀ (s t : State) (i : Instr),
    (i = .decFreq ∨ i = .decLevel ∨ (∃ d, d < 16 ∧ i = .decOffset d) ∨ i = .isAck ∨ i = .isNak ∨ i = .isEcho) →
    exec i s = .next t →
    SameButResp s t ∧ ∃ r, t.resp = some r ∧ r.NoBytes ∧ r.NoFrame

/-- Frame of PARSE: nothing but RESP changes; R and OB hold no value afterwards, and of PF_PAYLOAD only the bytes below PF_PLEN. -/
def Obligations.ParseFrame : Prop :=
  ∀ s t : State, exec .parse s = .next t →
    SameButResp s t ∧ ∃ r, t.resp = some r ∧ r.r = none ∧ r.NoBytes ∧ ∀ j, r.pfPlen.getD 0 ≤ j → r.pfPayload.read j = none

/-! ## Rules of the whole machine -/

/-- 10_state R21, 30_encoding R58: every request replaces the whole of RESP: on success exactly the fields the operation writes
hold values, on an error STATUS alone does. -/
def Obligations.ResponseReplacedWhole : Prop :=
  (∀ (s t : State) (i : Instr), i.wf = true → exec i s = .next t → ∃ r, t.resp = some r ∧
    (r.status = 0x00 → FieldsWritten s.req r i) ∧ (r.status ≠ 0x00 → r.IsBare r.status)) ∧
  (∀ (s t : State) (w : CmdWord) (e : DecodeError), s.req.cmd = some w → decode w = .error e → transaction s = .next t →
    ∃ r, t.resp = some r ∧ r.IsBare 0x04)

/-- 60_exceptions R88, R92: which codes each operation can give; the engine's codes 0x05 to 0x08 and the reserved ones never. -/
def Obligations.StatusKindsPerOperation : Prop :=
  (∀ (s t : State) (i : Instr) (r : Resp), exec i s = .next t → t.resp = some r →
    ((i = .decFreq ∨ i = .decLevel ∨ ∃ d, i = .decOffset d) → r.status = 0x00 ∨ r.status = 0x01 ∨ r.status = 0x03) ∧
    (i = .parse → r.status = 0x00 ∨ r.status = 0x02 ∨ r.status = 0x03) ∧
    ((i = .encFreq ∨ i = .encLevel ∨ (∃ d, i = .encOffset d) ∨ i = .toBytes ∨ i = .isAck ∨ i = .isNak ∨ i = .isEcho) →
      r.status = 0x00 ∨ r.status = 0x03)) ∧
  (∀ (s t : State), transaction s = .next t → ∃ r, t.resp = some r ∧ r.status.toNat ≤ 4)

/-- 60_exceptions R89: an error is not a trap: RESP holds its code and nothing else, and everything but RESP (the port, ready for
the next request as after a success, included) is as before. -/
def Obligations.ErrorIsNoTrap : Prop :=
  ∀ (s t : State) (r : Resp), transaction s = .next t → t.resp = some r → r.status ≠ 0x00 →
    SameButResp s t ∧ r.IsBare r.status

/-- 60_exceptions R93: a request whose operation's fields all hold values is answered, whatever they are; and the only faults of a
step are a host read of a field that holds no value and a request's read of a REQ field that holds none. That at the port this
second fault comes while the request waits, and not on the edge that accepts it, is the model's choice (log 19). -/
def Obligations.WrittenRequestIsAnswered : Prop :=
  (∀ (s : State) (w : CmdWord), s.req.cmd = some w → (∀ i, decode w = .ok i → s.req.Written s.cfg i) →
    ∃ t r, transaction s = .next t ∧ t.resp = some r) ∧
  (∀ (s : State) (f : Fault), step s = .fault f →
    (∃ g rest, f = .noValue g ∧ s.respValue g = none ∧ (s.host = .read g :: rest ∨ ∃ d, s.host = .copy g d :: rest)) ∨
    (∃ g, f = .unwrittenReqField g ∧ ((∃ rest, s.host = .issue :: rest ∧ s.req.hasValue g = false) ∨
      ∃ q n, s.port = .busy q n ∧ q.hasValue g = false ∧ (s.host = [] ∨ ∃ (p : Pins) (rest : _), s.host = .clock p :: rest))))

/-- 10_state R33: an operation that reads A where the host never wrote it faults. -/
def Obligations.UnwrittenNumberFaults : Prop :=
  ∀ s : State, s.req.a = none →
    exec .encFreq s = .fault (.unwrittenReqField .a) ∧ exec .encLevel s = .fault (.unwrittenReqField .a) ∧
      ∀ d, d ≠ 0 → exec (.encOffset d) s = .fault (.unwrittenReqField .a)

/-- 10_state R33: an operation on the input buffer that reads IB_LEN, or a byte of IB below it, where the host never wrote it
faults. `n` is the length at which the operation reads IB (for PARSE any of 6 bytes or more). -/
def Obligations.UnwrittenInputFaults : Prop :=
  ∀ (s : State) (i : Instr) (n : Nat),
    ((i = .decFreq ∧ n = 5) ∨ (i = .decLevel ∧ n = 2) ∨ (∃ d, d ≠ 0 ∧ i = .decOffset d ∧ n = d / 2 + 1) ∨ (i = .parse ∧ 6 ≤ n)) →
    (s.req.ibLen = none → exec i s = .fault (.unwrittenReqField .ibLen)) ∧
    (s.req.ibLen = some n → n ≤ s.cfg.maxFrameBytes → (∃ j, j < n ∧ s.req.ib.read j = none) →
      ∃ j, j < n ∧ s.req.ib.read j = none ∧ exec i s = .fault (.unwrittenReqField (.ib j)))

/-- 10_state R33: a frame operation that reads a field of the frame operand where the host never wrote it faults, on some field
without a value; F_CMD1 is read only when F_CLEN = 2. Which fields a check reads is the model's (log 3): F_PLEN even where F_CLEN
already fails, F_CMD0 of IS_ACK and IS_NAK even where F_CLEN = 2, F_SRC and F_DEST of IS_ECHO both. That one byte of F_PAYLOAD
below F_PLEN without a value faults, whatever the others hold, is the model's too (log 4). -/
def Obligations.UnwrittenFrameFaults : Prop :=
  ∀ s : State,
    (∀ i, (i = .toBytes ∨ i = .isAck ∨ i = .isNak ∨ i = .isEcho) → (s.req.fClen = none ∨ s.req.fPlen = none) →
      ∃ f, s.req.hasValue f = false ∧ exec i s = .fault (.unwrittenReqField f)) ∧
    (∀ k, FrameOperandGood s k →
      (s.req.fCmd0 = none → exec .isAck s = .fault (.unwrittenReqField .fCmd0) ∧
        exec .isNak s = .fault (.unwrittenReqField .fCmd0)) ∧
      ((s.req.fSrc = none ∨ s.req.fDest = none) →
        ∃ f, s.req.hasValue f = false ∧ exec .isEcho s = .fault (.unwrittenReqField f)) ∧
      ((s.req.fCmd0 = none ∨ s.req.fSrc = none ∨ s.req.fDest = none ∨ (k = 2 ∧ s.req.fCmd1 = none) ∨
          (∃ n j, s.req.fPlen = some n ∧ j < n ∧ s.req.fPayload.read j = none)) →
        ∃ f, s.req.hasValue f = false ∧ exec .toBytes s = .fault (.unwrittenReqField f)))

/-- 30_encoding R57, 10_state R19: a field the operation does not read never affects the response. -/
def Obligations.DontCareFieldsDoNotMatter : Prop :=
  ∀ (i : Instr) (s s' t : State), s'.cfg = s.cfg → s.req.AgreeOn s'.req i → exec i s = .next t →
    exec i s' = .next { s' with resp := t.resp }

/-- 10_state R28: the response is a function of CFG and REQ alone: not of earlier responses, of the port, or of the host's side. -/
def Obligations.ResponseDependsOnRequestAlone : Prop :=
  ∀ s s' : State, s'.cfg = s.cfg → s'.req = s.req →
    (∀ t, transaction s = .next t → transaction s' = .next { s' with resp := t.resp }) ∧
    (∀ f, transaction s = .fault f → transaction s' = .fault f)

/-- 20_memory R43: no read has a side effect on the block, and the same request twice gives the same response twice. -/
def Obligations.RepeatedRequestAnswersAlike : Prop :=
  (∀ (s t : State) (rest : List HostAction), s.host = .issue :: .issue :: rest → step s = .next t →
    ∃ u, step t = .next u ∧ u.resp = t.resp ∧ u.req = s.req) ∧
  (∀ (s t : State) (f : RespField) (rest : List HostAction), s.host = .read f :: rest → step s = .next t →
    t.resp = s.resp ∧ t.req = s.req ∧ t.port = s.port ∧ t.cfg = s.cfg)

/-- 10_state R18: no step, reset included, changes the configuration. -/
def Obligations.ConfigurationIsFixed : Prop :=
  ∀ s t : State, step s = .next t → t.cfg = s.cfg

/-- 10_state R23: only the host (its writes, copies and reset) changes REQ; only the block (a transaction, a clock edge, the
answer to a waiting request, reset) changes RESP. -/
def Obligations.WritersOfReqAndResp : Prop :=
  (∀ (s t : State) (x : HostAction) (rest : List HostAction), s.host = x :: rest → step s = .next t →
    (t.req ≠ s.req → x = .reset ∨ (∃ f v, x = .write f v) ∨ (∃ a b, x = .copy a b) ∨ ∃ p : Pins, x = .clock p ∧ p.rst = true) ∧
    (t.resp ≠ s.resp → x = .reset ∨ x = .issue ∨
      ∃ p : Pins, x = .clock p ∧ (p.rst = true ∨ (p.answer = true ∧ ∃ q n, s.port = .busy q n)))) ∧
  (∀ s t : State, s.host = [] → step s = .next t → t.req = s.req ∧ (t.resp ≠ s.resp → ∃ q n, s.port = .busy q n))

/-- Every refusal is a host action outside the table of 10_state R31: a request while one is outstanding, or a write of a buffer
byte that does not exist (the model's convention, log 8). -/
def Obligations.RefusalsAreOutsideTheTable : Prop :=
  ∀ (s : State) (r : Refusal), step s = .refused r →
    ∃ x rest, s.host = x :: rest ∧
      ((r = .requestOutstanding ∧ x = .issue ∧ s.port.reqReady = false) ∨
        ∃ f, r = .noSuchBufferByte f ∧ f.inBuffer s.cfg = false ∧ ((∃ v, x = .write f v) ∨ ∃ g, x = .copy g f))

/-! ## The host's side -/

/-- 10_state R22: a host read of a field that holds no value faults; any other gives the value and changes nothing of the block. -/
def Obligations.ReadOfNoValueFaults : Prop :=
  ∀ (s : State) (f : RespField) (rest : List HostAction), s.host = .read f :: rest →
    (s.respValue f = none → step s = .fault (.noValue f)) ∧
    (∀ v, s.respValue f = some v → step s = .next { s with host := rest, seen := (f, v) :: s.seen })

/-- 10_state R19, 00_scope R9: a host write stores the number modulo 2 to the field's width, in that field alone. -/
def Obligations.HostWriteStoresField : Prop :=
  ∀ (s : State) (v : Int),
    hostWrite .cmd v s = .next { s with req := { s.req with cmd := some (BitVec.ofInt 16 v) } } ∧
    hostWrite .a v s = .next { s with req := { s.req with a := some (BitVec.ofInt 64 v) } } ∧
    hostWrite .ibLen v s = .next { s with req := { s.req with ibLen := some (v % 2 ^ lenBits s.cfg).toNat } } ∧
    hostWrite .fDest v s = .next { s with req := { s.req with fDest := some (BitVec.ofInt 8 v) } } ∧
    hostWrite .fSrc v s = .next { s with req := { s.req with fSrc := some (BitVec.ofInt 8 v) } } ∧
    hostWrite .fClen v s = .next { s with req := { s.req with fClen := some (BitVec.ofInt 2 v) } } ∧
    hostWrite .fCmd0 v s = .next { s with req := { s.req with fCmd0 := some (BitVec.ofInt 8 v) } } ∧
    hostWrite .fCmd1 v s = .next { s with req := { s.req with fCmd1 := some (BitVec.ofInt 8 v) } } ∧
    hostWrite .fPlen v s = .next { s with req := { s.req with fPlen := some (v % 2 ^ lenBits s.cfg).toNat } } ∧
    (∀ i, i < s.cfg.maxFrameBytes → ∃ m : Memory, hostWrite (.ib i) v s = .next { s with req := { s.req with ib := m } } ∧
      m.read i = some (BitVec.ofInt 8 v) ∧ ∀ j, j ≠ i → m.read j = s.req.ib.read j) ∧
    (∀ i, i < s.cfg.maxFrameBytes - 6 → ∃ m : Memory,
      hostWrite (.fPayload i) v s = .next { s with req := { s.req with fPayload := m } } ∧
      m.read i = some (BitVec.ofInt 8 v) ∧ ∀ j, j ≠ i → m.read j = s.req.fPayload.read j)

/-- 70_reset R107: the host copies a response value into REQ itself: any RESP field that holds a value (ENC_FREQ's OB, PARSE's PF
fields) into any REQ field inside its buffer (F_PAYLOAD, IS_ACK's F fields), modulo that field's width and in that field alone,
RESP unchanged; a field that holds no value is the host's fault. That reading and writing are one step is the model's (log 18). -/
def Obligations.CopyFeedsPayload : Prop :=
  ∀ (s : State) (src : RespField) (dst : ReqField) (rest : List HostAction), s.host = .copy src dst :: rest →
    (∀ v, s.respValue src = some v → dst.inBuffer s.cfg = true →
      ∃ q : Req, step s = .next { s with host := rest, req := q } ∧ q.read dst = some (v % 2 ^ dst.width s.cfg) ∧
        ∀ f, f ≠ dst → q.read f = s.req.read f) ∧
    (s.respValue src = none → step s = .fault (.noValue src))

/-- 00_scope R7: LEN_BITS is the least width that holds every length up to MAX_FRAME_BYTES, ceil(log2(MAX_FRAME_BYTES + 1)). -/
def Obligations.LenBitsIsLeastWidth : Prop :=
  ∀ c : Config, c.Wf → c.maxFrameBytes + 1 ≤ 2 ^ lenBits c ∧ ∀ k, c.maxFrameBytes + 1 ≤ 2 ^ k → lenBits c ≤ k

/-- 30_encoding R63, its example: `ENC_OFFSET d=4, a=-1234` is command word 0x0045 with A = 0xFFFFFFFFFFFFFB2E. -/
def Obligations.AssemblerExample : Prop :=
  assemble "ENC_OFFSET d=4, a=-1234".toList = some (.encOffset 4 (-1234)) ∧
    ∀ q : Req, (AsmLine.encOffset 4 (-1234)).fill Config.example q =
      { q with cmd := some 0x0045, a := some 0xFFFFFFFFFFFFFB2E }

/-- 30_encoding R63: what a line fills: the command word, and A, or IB from index 0 with IB_LEN, or the frame operand. -/
def Obligations.AssemblerLineFillsRequest : Prop :=
  ∀ (c : Config) (q : Req), c.Wf →
    (∀ l : AsmLine, l.instr.wf = true → (l.fill c q).cmd = some (encode l.instr)) ∧
    (∀ (ib : List Byte) (l : AsmLine), ib.length ≤ c.maxFrameBytes →
      (l = .decFreq ib ∨ l = .decLevel ib ∨ (∃ d, l = .decOffset d ib) ∨ l = .parse ib) → (l.fill c q).HoldsInput ib) ∧
    (∀ (a : Int) (l : AsmLine), (l = .encFreq a ∨ l = .encLevel a ∨ ∃ d, l = .encOffset d a) →
      (l.fill c q).a = some (BitVec.ofInt 64 a)) ∧
    (∀ (f : FrameArg) (l : AsmLine), f.payload.length ≤ c.maxFrameBytes - 6 →
      (l = .toBytes f ∨ l = .isAck f ∨ l = .isNak f ∨ l = .isEcho f) →
      (l.fill c q).HoldsFrame f.dest f.src (f.cmd0 :: f.cmd1.toList) f.payload)

/-! ## The port -/

/-- 10_state R30: a request is accepted, its REQ sampled, on an edge with `req_valid` = 1 while `req_ready` = 1; with
`req_valid` = 0 such an edge accepts nothing, and while a request is outstanding `req_valid` makes no difference. RESP does not
change on the edge that accepts. -/
def Obligations.PortAcceptsOnlyWhenReady : Prop :=
  ∀ (s : State) (p : Pins), p.rst = false →
    (s.port = .ready → p.reqValid = true → ∃ t, clockEdge p s = .next t ∧ t.port = .busy s.req 0 ∧ t.port.reqReady = false ∧
      t.resp = s.resp ∧ t.req = s.req) ∧
    (s.port = .ready → p.reqValid = false → ∃ t, clockEdge p s = .next t ∧ t.port = .ready ∧ t.resp = s.resp ∧ t.req = s.req) ∧
    (s.port.reqReady = false → ∀ b, clockEdge { p with reqValid := b } s = clockEdge p s)

/-- 10_state R30: `rsp_valid` rises no earlier than RESPONSE_LATENCY edges after acceptance, and RESP does not change before. -/
def Obligations.PortAnswersNoEarlierThanLatency : Prop :=
  ∀ (s : State) (p : Pins) (q : Req) (age : Nat), s.port = .busy q age → p.rst = false →
    age + 1 < s.cfg.responseLatency →
    ∃ t, clockEdge p s = .next t ∧ t.port = .busy q (age + 1) ∧ t.port.rspValid = false ∧ t.resp = s.resp

/-- 10_state R30: the response is taken on an edge with `rsp_valid` = 1 and `rsp_ready` = 1; then `rsp_valid` falls, `req_ready`
rises, and the RESP outputs keep their values. Without `rsp_ready` it stays offered. -/
def Obligations.PortTakesResponse : Prop :=
  ∀ (s : State) (p : Pins), s.port.rspValid = true → p.rst = false →
    ∃ t, clockEdge p s = .next t ∧ t.resp = s.resp ∧ t.req = s.req ∧ t.port.rspValid = !p.rspReady ∧ t.port.reqReady = p.rspReady

/-- 10_state R30: the output port of a RESP field shows the field's value while it has one, and otherwise some number of the
field's width. -/
def Obligations.PinsShowResponse : Prop :=
  ∀ (s : State) (f : RespField),
    (∀ v, s.respValue f = some v → s.respPin f = v) ∧ (s.respValue f = none → s.respPin f < 2 ^ f.width s.cfg)

/-- 10_state R29, R30: the port realises the transaction. A request accepted from state `s` and answered after any edges that do
not answer, mixed with any host writes, at least RESPONSE_LATENCY edges after acceptance, leaves in RESP exactly what the atomic
transaction on `s` gives: REQ is sampled at acceptance. -/
def Obligations.PortRealisesTransaction : Prop :=
  ∀ (s u : State) (accept answer : Pins) (between : List HostAction),
    s.port = .ready → accept.rst = false → accept.reqValid = true → answer.rst = false → answer.answer = true →
    (∀ x ∈ between, (∃ p : Pins, x = .clock p ∧ p.rst = false ∧ p.answer = false) ∨
      ∃ f v, x = .write f v ∧ f.inBuffer s.cfg = true) →
    s.cfg.responseLatency ≤ clockEdges between + 1 →
    s.host = .clock accept :: (between ++ [.clock answer]) → transaction s = .next u →
    ∃ t : State, Host.Core.run Sys2Proof.core (between.length + 2) s = .next t ∧ t.resp = u.resp ∧ t.port.rspValid = true ∧
      t.host = []

/-! ## Runs -/

/-- 70_reset R109: every accepted request is answered after finitely many steps unless reset intervenes. From any state in which a
request waits, whatever the pending host actions without a reset, a bounded number of steps reaches the answer that the atomic
transaction on the sampled request gives, unless the host itself stops the run by reading a field without a value or by an action
outside the table. Where the host does nothing more, it is reached without exception, and a request on an unwritten field faults. -/
def Obligations.AcceptedRequestIsAnswered : Prop :=
  ∀ (s : State) (q : Req) (age : Nat), s.port = .busy q age →
    (∀ u, (∀ x ∈ s.host, x.isReset = false) → transaction { s with req := q } = .next u →
      ∃ k, k ≤ s.host.length + s.cfg.responseLatency + 1 ∧
        ((∃ t : State, Host.Core.run Sys2Proof.core k s = .next t ∧ t.port = .answered ∧ t.resp = u.resp) ∨
          (∃ g, Host.Core.run Sys2Proof.core k s = .fault (.noValue g)) ∨ ∃ r, Host.Core.run Sys2Proof.core k s = .refused r)) ∧
    (∀ u, s.host = [] → transaction { s with req := q } = .next u →
      ∃ (k : Nat) (t : State), k ≤ s.cfg.responseLatency + 1 ∧ Host.Core.run Sys2Proof.core k s = .next t ∧ t.port = .answered ∧
        t.resp = u.resp ∧ t.req = s.req ∧ t.cfg = s.cfg) ∧
    (∀ f, s.host = [] → transaction { s with req := q } = .fault f →
      ∃ k, k ≤ s.cfg.responseLatency + 1 ∧ Host.Core.run Sys2Proof.core k s = .fault f)

/-- 70_reset R110: a run is finite. From any state a bounded number of steps reaches the end of the run or a stop; and an ended run
stays as it is. That the run ends only when no host action at all is left (R110 asks for no further request and the last response
produced) is the model's choice (log 21), and so is the bound (log 9). -/
def Obligations.RunEndsOrStops : Prop :=
  (∀ s : State, ∃ k, k ≤ s.host.length + s.cfg.responseLatency + 1 ∧
    ((∃ t : State, Host.Core.run Sys2Proof.core k s = .next t ∧ t.runEnded) ∨ (∃ f, Host.Core.run Sys2Proof.core k s = .fault f) ∨
      ∃ r, Host.Core.run Sys2Proof.core k s = .refused r)) ∧
  (∀ s : State, s.runEnded → ∀ k, Host.Core.run Sys2Proof.core k s = .next s)

/-- 70_reset R110: in a run from reset that no reset cuts short, RESP is the response to the last request answered so far, and
NONE while there is none: at the end of the run, which is the model's reading of the end (log 21), its final state. -/
def Obligations.RunLeavesLastResponse : Prop :=
  ∀ (c : Config) (actions : List HostAction) (k : Nat) (t : State), (∀ x ∈ actions, x.isReset = false) →
    Host.Core.run Sys2Proof.core k (runStart c actions) = .next t → t.resp = (responsesOf k (runStart c actions)).getLast?

/-- 70_reset R110, 20_memory R46: each response is the one its request produced: a step that produces a response leaves in RESP
what the atomic transaction on its request gives (the fields sampled at acceptance), and no other step but a reset changes RESP. -/
def Obligations.EachResponseIsItsRequests : Prop :=
  ∀ s t : State, step s = .next t →
    (producesResponse s t = true → ∃ u : State, transaction { s with req := s.request } = .next u ∧ t.resp = u.resp) ∧
    (producesResponse s t = false → (∀ x, s.host.head? = some x → x.isReset = false) → t.resp = s.resp)

/-! ## The round-trip laws together -/

/-- 40_bcd R72, whole: each encoder's output on its domain is decoded to the operand it came from; each decoder returns STATUS = OK
exactly on the byte sequences its encoder produces, and the encoder gives different operands different bytes, so it is a bijection
onto what the decoder accepts; the offset 0 is encoded as all zero bytes. -/
def Obligations.EncodersAreBijective : Prop :=
  (∀ enc dec : Instr, enc.wf = true → decoderOf enc = some dec →
    (∀ a, encoderDomain enc a → ∃ bs, EncodesTo enc a bs ∧ DecodesTo dec bs a) ∧
    (∀ (s t : State) (bs : List Byte) (r : Resp), s.cfg.Wf → s.req.HoldsInput bs → exec dec s = .next t → t.resp = some r →
      (r.status = 0x00 ↔ ∃ a, encoderDomain enc a ∧ EncodesTo enc a bs)) ∧
    (∀ (a a' : Word64) (bs : List Byte), encoderDomain enc a → encoderDomain enc a' → EncodesTo enc a bs → EncodesTo enc a' bs →
      a = a')) ∧
  ∀ d, 1 ≤ d → d ≤ 15 → EncodesTo (.encOffset d) 0 (List.replicate (d / 2 + 1) 0x00)
end

