-- ==== Sys2Proof/Laws/Memory.lean ====
section
/-! SUPPORT. Reading after writing, for the buffers and the fields of REQ; the canonical form; what MemRead and MemWrite do. -/

namespace Sys2Proof.Machine

@[simp] theorem read_nil (i : Nat) : Memory.read [] i = none := rfl

theorem read_cons (j : Nat) (b : Byte) (m : Memory) (i : Nat) :
    Memory.read ((j, b) :: m) i = if j = i then some b else Memory.read m i := rfl

@[simp] theorem read_write_same (m : Memory) (i : Nat) (v : Byte) : (m.write i v).read i = some v := by
  induction m with
  | nil => simp [Memory.write, read_cons]
  | cons x m ih =>
    obtain ⟨j, b⟩ := x
    by_cases h : i < j
    · simp [Memory.write, h, read_cons]
    · by_cases h' : i = j
      · simp [Memory.write, h', read_cons]
      · simp [Memory.write, h, h', read_cons, ih, Ne.symm h']

theorem read_write_other (m : Memory) {i k : Nat} (v : Byte) (hk : k ≠ i) : (m.write i v).read k = m.read k := by
  induction m with
  | nil => simp [Memory.write, read_cons, Ne.symm hk]
  | cons x m ih =>
    obtain ⟨j, b⟩ := x
    by_cases h : i < j
    · simp [Memory.write, h, read_cons, Ne.symm hk]
    · by_cases h' : i = j
      · subst h'
        simp [Memory.write, read_cons, Ne.symm hk]
      · simp [Memory.write, h, h', read_cons, ih]

/-- Writing adds the index to those listed. -/
theorem mem_write_key {m : Memory} {i : Nat} {v : Byte} {x : Host.Cell} (hx : x ∈ m.write i v) : x.1 = i ∨ x ∈ m := by
  induction m with
  | nil => simp [Memory.write] at hx; simp [hx]
  | cons y m ih =>
    obtain ⟨j, b⟩ := y
    unfold Memory.write at hx
    split at hx
    · simp only [List.mem_cons] at hx ⊢
      rcases hx with rfl | hx | hx <;> simp_all
    · split at hx
      · simp only [List.mem_cons] at hx ⊢
        rcases hx with rfl | hx <;> simp_all
      · simp only [List.mem_cons] at hx ⊢
        rcases hx with rfl | hx
        · simp
        · rcases ih hx with h | h <;> simp_all

/-- Every write keeps the canonical form. -/
theorem wf_write {m : Memory} (hm : m.wf) (i : Nat) (v : Byte) : (m.write i v).wf := by
  induction m with
  | nil => simp [Memory.write, Memory.wf]
  | cons y m ih =>
    obtain ⟨j, b⟩ := y
    have hj : ∀ x ∈ m, j < x.1 := (List.pairwise_cons.mp hm).1
    have hm' : Memory.wf m := (List.pairwise_cons.mp hm).2
    unfold Memory.write
    split
    · rename_i h
      refine List.pairwise_cons.mpr ⟨fun x hx => ?_, hm⟩
      rcases List.mem_cons.mp hx with rfl | hx
      · exact h
      · exact h.trans (hj x hx)
    · split
      · rename_i h
        subst h
        exact List.pairwise_cons.mpr ⟨hj, hm'⟩
      · refine List.pairwise_cons.mpr ⟨fun x hx => ?_, ih hm'⟩
        rcases mem_write_key hx with h | h
        · rw [h]; show j < i; omega
        · exact hj x h

/-- MemWrite keeps the canonical form. -/
theorem wf_memWrite {m : Memory} (hm : m.wf) (v : List Byte) (addr : Nat) : (memWrite m addr v).wf := by
  induction v generalizing m addr with
  | nil => exact hm
  | cons b v ih => exact ih (wf_write hm addr b) (addr + 1)

/-- What MemWrite stores: the bytes from `addr` up, and nothing else changes. -/
theorem read_memWrite (m : Memory) (v : List Byte) (addr i : Nat) :
    (memWrite m addr v).read i = if addr ≤ i ∧ i < addr + v.length then v[i - addr]? else m.read i := by
  induction v generalizing m addr with
  | nil => simp [memWrite]
  | cons b v ih =>
    rw [memWrite, ih]
    rcases Nat.lt_trichotomy i addr with h | h | h
    · rw [if_neg (by simp; omega), if_neg (by simp; omega), read_write_other _ _ (by omega)]
    · subst h
      rw [if_neg (by omega), if_pos (by simp)]
      simp
    · have hi : i - addr = (i - (addr + 1)) + 1 := by omega
      by_cases hl : i < addr + (v.length + 1)
      · rw [if_pos (by omega), if_pos (by simp; omega), hi, List.getElem?_cons_succ]
      · rw [if_neg (by omega), if_neg (by simp; omega), read_write_other _ _ (by omega)]

/-- The buffer of a result: its bytes at their indices. -/
@[simp] theorem read_memWrite_nil (v : List Byte) (i : Nat) : (memWrite [] 0 v).read i = v[i]? := by
  rw [read_memWrite]
  split
  · simp
  · rename_i h
    rw [read_nil, List.getElem?_eq_none (by omega)]

/-- Writing past the last listed index puts the byte at the end. -/
theorem write_append {m : Memory} {i : Nat} (hm : ∀ x ∈ m, x.1 < i) (v : Byte) : m.write i v = m ++ [(i, v)] := by
  induction m with
  | nil => rfl
  | cons y m ih =>
    obtain ⟨j, b⟩ := y
    have hj : j < i := hm (j, b) (by simp)
    rw [Memory.write, if_neg (by omega), if_neg (by omega), ih (fun x hx => hm x (by simp [hx])), List.cons_append]

theorem memWrite_keys (m : Memory) (n : Nat) (hm : m.map Prod.fst = List.range n) (v : List Byte) :
    (memWrite m n v).map Prod.fst = List.range (n + v.length) := by
  induction v generalizing m n with
  | nil => simpa [memWrite] using hm
  | cons b v ih =>
    have hlt : ∀ x ∈ m, x.1 < n := fun x hx => by
      have := List.mem_map_of_mem (f := Prod.fst) hx
      rw [hm] at this
      exact List.mem_range.mp this
    rw [memWrite, ih (m.write n b) (n + 1) (by rw [write_append hlt, List.map_append, hm, List.range_succ]; rfl)]
    rw [List.length_cons]
    congr 1
    omega

/-- The indices of a result's buffer are exactly those below its length. -/
theorem memWrite_nil_keys (v : List Byte) : (memWrite [] 0 v).map Prod.fst = List.range v.length := by
  simpa using memWrite_keys [] 0 rfl v

/-- A byte that is listed lies at a listed index. -/
theorem exists_of_read {m : Memory} {i : Nat} {b : Byte} (h : m.read i = some b) : (i, b) ∈ m := by
  induction m with
  | nil => simp at h
  | cons x m ih =>
    obtain ⟨j, c⟩ := x
    rw [read_cons] at h
    split at h
    · simp_all
    · exact List.mem_cons_of_mem _ (ih h)

/-! ## The fields of REQ -/

/-- What a host write leaves in the field it writes: the number modulo 2 to the field's width (00_scope R9). -/
theorem read_reqWrite_same (c : Config) (q : Req) (f : ReqField) (v : Nat) :
    (q.write c f v).read f = some (v % 2 ^ f.width c) := by
  have hb : ∀ n : Nat, (BitVec.ofInt n (v : Int)).toNat = v % 2 ^ n := fun n => by
    rw [BitVec.ofInt_natCast, BitVec.toNat_ofNat]
  have hl : storeLen c v = v % 2 ^ lenBits c := by
    rw [storeLen, ← Int.toNat_natCast (v % 2 ^ lenBits c)]
    push_cast
    rfl
  cases f <;> simp only [Req.write, Req.read, ReqField.width, read_write_same, Option.map_some, hb, hl]

/-- A host write leaves every other field as it was. -/
theorem read_reqWrite_other (c : Config) (q : Req) {f g : ReqField} (v : Int) (h : g ≠ f) :
    (q.write c f v).read g = q.read g := by
  have hm : ∀ {m : Memory} {i j : Nat} {b : Byte}, j ≠ i → ((m.write i b).read j).map BitVec.toNat = (m.read j).map BitVec.toNat :=
    fun hj => by rw [read_write_other _ _ hj]
  cases f <;> cases g <;> first
    | rfl
    | exact absurd rfl h
    | exact hm fun e => h (e ▸ rfl)

end Sys2Proof.Machine
end

