-- ==== Sys2Proof/Laws/Assembler.lean ====
section
/-! SUPPORT. What the writes of an assembler line leave in REQ (30_encoding R63). -/

namespace Sys2Proof.Machine

/-- The bytes a line puts in IB. -/
theorem foldl_ibWrites (c : Config) (bs : List Byte) (i : Nat) (q : Req) :
    ((fillWrites .ib i bs).foldl (fun q x => q.write c x.1 x.2) q) = { q with ib := memWrite q.ib i bs } := by
  induction bs generalizing i q with
  | nil => rfl
  | cons b bs ih =>
    rw [fillWrites, List.foldl_cons, ih]
    simp [Req.write, memWrite]

/-- The bytes a line puts in F_PAYLOAD. -/
theorem foldl_payloadWrites (c : Config) (bs : List Byte) (i : Nat) (q : Req) :
    ((fillWrites .fPayload i bs).foldl (fun q x => q.write c x.1 x.2) q) = { q with fPayload := memWrite q.fPayload i bs } := by
  induction bs generalizing i q with
  | nil => rfl
  | cons b bs ih =>
    rw [fillWrites, List.foldl_cons, ih]
    simp [Req.write, memWrite]

/-- A length that fits the buffers is stored as it is. -/
theorem storeLen_of_le {c : Config} {n : Nat} (h : n ≤ c.maxFrameBytes) : storeLen c (n : Int) = n := by
  have : n < 2 ^ lenBits c := by
    have := Nat.lt_log2_self (n := c.maxFrameBytes); rw [lenBits]; omega
  rw [storeLen]
  have e : ((n : Int) % 2 ^ lenBits c) = ((n % 2 ^ lenBits c : Nat) : Int) := by push_cast; rfl
  rw [e, Int.toNat_natCast, Nat.mod_eq_of_lt this]

end Sys2Proof.Machine
end

