-- ==== Sys2Proof/Laws/State.lean ====
section
/-! SUPPORT. One lemma per field for each shared update of the state, and the port's view of each phase. -/

namespace Sys2Proof.Machine

variable (s : State) (e : ErrorKind)

@[simp] theorem raiseError_cfg : (raiseError e s).cfg = s.cfg := rfl
@[simp] theorem raiseError_req : (raiseError e s).req = s.req := rfl
@[simp] theorem raiseError_resp : (raiseError e s).resp = some (Resp.only e.code) := rfl
@[simp] theorem raiseError_port : (raiseError e s).port = s.port := rfl
@[simp] theorem raiseError_host : (raiseError e s).host = s.host := rfl
@[simp] theorem raiseError_seen : (raiseError e s).seen = s.seen := rfl
@[simp] theorem raiseError_edges : (raiseError e s).edges = s.edges := rfl

@[simp] theorem resetBlock_cfg : (resetBlock s).cfg = s.cfg := rfl
@[simp] theorem resetBlock_req : (resetBlock s).req = Req.unwritten := rfl
@[simp] theorem resetBlock_resp : (resetBlock s).resp = none := rfl
@[simp] theorem resetBlock_port : (resetBlock s).port = .ready := rfl
@[simp] theorem resetBlock_host : (resetBlock s).host = s.host := rfl
@[simp] theorem resetBlock_seen : (resetBlock s).seen = s.seen := rfl
@[simp] theorem resetBlock_edges : (resetBlock s).edges = s.edges := rfl

variable (w : CmdWord)

@[simp] theorem presentWord_cfg : (presentWord s w).cfg = s.cfg := rfl
@[simp] theorem presentWord_req : (presentWord s w).req = { s.req.filled with cmd := some w } := rfl
@[simp] theorem presentWord_resp : (presentWord s w).resp = s.resp := rfl
@[simp] theorem presentWord_port : (presentWord s w).port = .ready := rfl
@[simp] theorem presentWord_host : (presentWord s w).host = .issue :: s.host := rfl
@[simp] theorem presentWord_seen : (presentWord s w).seen = s.seen := rfl
@[simp] theorem presentWord_edges : (presentWord s w).edges = s.edges := rfl

variable (c : Byte) (v : Word64) (bs : List Byte)

@[simp] theorem only_status : (Resp.only c).status = c := rfl
@[simp] theorem only_r : (Resp.only c).r = none := rfl
@[simp] theorem only_obLen : (Resp.only c).obLen = none := rfl
@[simp] theorem only_ob : (Resp.only c).ob = [] := rfl
@[simp] theorem only_pfDest : (Resp.only c).pfDest = none := rfl
@[simp] theorem only_pfSrc : (Resp.only c).pfSrc = none := rfl
@[simp] theorem only_pfClen : (Resp.only c).pfClen = none := rfl
@[simp] theorem only_pfCmd0 : (Resp.only c).pfCmd0 = none := rfl
@[simp] theorem only_pfCmd1 : (Resp.only c).pfCmd1 = none := rfl
@[simp] theorem only_pfPlen : (Resp.only c).pfPlen = none := rfl
@[simp] theorem only_pfPayload : (Resp.only c).pfPayload = [] := rfl

variable (cfg : Config) (actions : List HostAction)

@[simp] theorem runStart_cfg : (runStart cfg actions).cfg = cfg := rfl
@[simp] theorem runStart_req : (runStart cfg actions).req = Req.unwritten := rfl
@[simp] theorem runStart_resp : (runStart cfg actions).resp = none := rfl
@[simp] theorem runStart_port : (runStart cfg actions).port = .ready := rfl
@[simp] theorem runStart_host : (runStart cfg actions).host = actions := rfl

variable (q : Req) (age : Nat)

@[simp] theorem ready_reqReady : Port.ready.reqReady = true := rfl
@[simp] theorem busy_reqReady : (Port.busy q age).reqReady = false := rfl
@[simp] theorem answered_reqReady : Port.answered.reqReady = false := rfl
@[simp] theorem ready_rspValid : Port.ready.rspValid = false := rfl
@[simp] theorem busy_rspValid : (Port.busy q age).rspValid = false := rfl
@[simp] theorem answered_rspValid : Port.answered.rspValid = true := rfl
@[simp] theorem ready_waiting : Port.ready.waiting = false := rfl
@[simp] theorem busy_waiting : (Port.busy q age).waiting = true := rfl
@[simp] theorem answered_waiting : Port.answered.waiting = false := rfl

end Sys2Proof.Machine
end

