-- ==== Sys2Proof/Laws/Ops.lean ====
section
/-! SUPPORT. One lemma for each shared operation that says everything it can do. -/

namespace Sys2Proof.Machine

/-! ## Checks and field reads -/

theorem check_true {c : Prop} [Decidable c] {e : ErrorKind} (h : c) : check c e = .ok () := if_pos h

theorem check_false {c : Prop} [Decidable c] {e : ErrorKind} (h : ¬c) : check c e = .error (.raised e) := if_neg h

theorem need_some {α : Type} (f : ReqField) (v : α) : need f (some v) = .ok v := rfl

theorem need_none {α : Type} (f : ReqField) : need (α := α) f none = .error (.faulted (.unwrittenReqField f)) := rfl

/-- Running on after a step that gave a value. -/
@[simp] theorem ok_bind {α β : Type} (a : α) (k : α → Except Halt β) : (Except.ok a >>= k) = k a := rfl

/-- A step that ended the operation ends it with the same halt. -/
@[simp] theorem error_bind {α β : Type} (h : Halt) (k : α → Except Halt β) : (Except.error h >>= k) = .error h := rfl

@[simp] theorem pure_ok {α : Type} (a : α) : (pure a : Except Halt α) = .ok a := rfl

theorem check_eq_ok {c : Prop} [Decidable c] {e : ErrorKind} {u : Unit} : check c e = .ok u ↔ c := by
  by_cases h : c <;> simp [check, h]

theorem need_eq_ok {α : Type} {f : ReqField} {x : Option α} {v : α} : need f x = .ok v ↔ x = some v := by
  cases x <;> simp [need]

theorem bind_eq_ok {α β : Type} {x : Except Halt α} {k : α → Except Halt β} {b : β} :
    (x >>= k) = .ok b ↔ ∃ a, x = .ok a ∧ k a = .ok b := by
  cases x <;> simp

/-! ## MemRead -/

/-- MemRead answers exactly when every byte of the run holds a value, and then it gives those bytes. -/
theorem memRead_eq_ok {f : Nat → ReqField} {m : Memory} {addr n : Nat} {bs : List Byte} :
    memRead f m addr n = .ok bs ↔ bs.length = n ∧ ∀ j, j < n → m.read (addr + j) = bs[j]? := by
  induction n generalizing addr bs with
  | zero =>
    simp only [memRead, Except.ok.injEq]
    constructor
    · rintro rfl; simp
    · intro h; exact (List.length_eq_zero_iff.mp h.1).symm
  | succ n ih =>
    simp only [memRead, bind_eq_ok, need_eq_ok, pure_ok, Except.ok.injEq]
    constructor
    · rintro ⟨b, hb, bs', hbs', rfl⟩
      obtain ⟨hl, hr⟩ := ih.mp hbs'
      refine ⟨by simp [hl], fun j hj => ?_⟩
      cases j with
      | zero => simpa using hb
      | succ j => simpa [Nat.add_assoc, Nat.add_comm 1] using hr j (by omega)
    · rintro ⟨hl, hr⟩
      cases bs with
      | nil => simp at hl
      | cons b bs' =>
        refine ⟨b, by simpa using hr 0 (by omega), bs', ih.mpr ⟨by simpa using hl, fun j hj => ?_⟩, rfl⟩
        simpa [Nat.add_assoc, Nat.add_comm 1] using hr (j + 1) (by omega)

/-- What MemRead gives where the run's bytes are known. -/
theorem memRead_of_read {f : Nat → ReqField} {m : Memory} {addr : Nat} {bs : List Byte}
    (h : ∀ j, j < bs.length → m.read (addr + j) = bs[j]?) : memRead f m addr bs.length = .ok bs :=
  memRead_eq_ok.mpr ⟨rfl, h⟩

/-- MemRead answers where every byte of the run holds some value. -/
theorem memRead_isOk {f : Nat → ReqField} {m : Memory} {addr n : Nat}
    (h : ∀ j, j < n → (m.read (addr + j)).isSome) : ∃ bs, memRead f m addr n = .ok bs := by
  induction n generalizing addr with
  | zero => exact ⟨[], rfl⟩
  | succ n ih =>
    obtain ⟨b, hb⟩ := Option.isSome_iff_exists.mp (h 0 (by omega))
    obtain ⟨bs, hbs⟩ := ih (addr := addr + 1) fun j hj => by
      have := h (j + 1) (by omega)
      rwa [Nat.add_assoc, Nat.add_comm 1 j]
    exact ⟨b :: bs, by
      rw [memRead, hbs]
      rw [Nat.add_zero] at hb
      rw [hb]
      rfl⟩

/-- MemRead never raises an error: it can only stop on an unwritten byte (20_memory R40, 10_state R33). -/
theorem memRead_error {f : Nat → ReqField} {m : Memory} {addr n : Nat} {h : Halt} (hr : memRead f m addr n = .error h) :
    ∃ j, j < n ∧ m.read (addr + j) = none ∧ h = .faulted (.unwrittenReqField (f (addr + j))) := by
  induction n generalizing addr h with
  | zero => simp [memRead] at hr
  | succ n ih =>
    rw [memRead] at hr
    cases hb : m.read addr with
    | none =>
      rw [hb, need_none, error_bind] at hr
      exact ⟨0, by omega, by simpa using hb, by simpa using (Except.error.inj hr).symm⟩
    | some b =>
      rw [hb, need_some, ok_bind] at hr
      cases hm : memRead f m (addr + 1) n with
      | ok bs => rw [hm] at hr; simp at hr
      | error g =>
        rw [hm, error_bind] at hr
        obtain ⟨j, hj, hn, hg⟩ := ih hm
        have e : addr + 1 + j = addr + (j + 1) := by omega
        rw [e] at hn hg
        exact ⟨j + 1, by omega, hn, by rw [← hg]; exact (Except.error.inj hr).symm⟩

/-! ## Ending a request -/

/-- Everything the end of a request can do. -/
theorem finish_cases (s : State) (x : Except Halt Resp) :
    (∃ r, x = .ok r ∧ finish s x = .next { s with resp := some r }) ∨
    (∃ e, x = .error (.raised e) ∧ finish s x = .next (raiseError e s)) ∨
    (∃ f, x = .error (.faulted f) ∧ finish s x = .fault f) := by
  rcases x with (e | f) | r
  · exact .inr (.inl ⟨e, rfl, rfl⟩)
  · exact .inr (.inr ⟨f, rfl, rfl⟩)
  · exact .inl ⟨r, rfl, rfl⟩

/-- The record a halted or completed operation leaves in RESP, if it leaves one. -/
def recordOf : Except Halt Resp → Option Resp
  | .ok r => some r
  | .error (.raised e) => some (Resp.only e.code)
  | .error (.faulted _) => none

/-- The end of a request answers a next state exactly when there is a record, and only RESP changes. -/
theorem finish_eq_next {s t : State} {x : Except Halt Resp} :
    finish s x = .next t ↔ ∃ r, recordOf x = some r ∧ t = { s with resp := some r } := by
  rcases x with (e | f) | r <;> simp [finish, recordOf, raiseError, eq_comm]

/-- The end of a request never refuses. -/
theorem finish_ne_refused (s : State) (x : Except Halt Resp) (r : Refusal) : finish s x ≠ .refused r := by
  rcases x with (e | f) | r' <;> simp [finish]

/-- A request whose operation completed answers with its record. -/
theorem answers_of_ok {s : State} {x : Except Halt Resp} {r : Resp} {P : Resp → Prop} (h : x = .ok r) (hp : P r) :
    AnswersWith s (finish s x) P := ⟨r, by rw [h]; rfl, hp⟩

/-- The record of an error is bare. -/
theorem only_isBare (c : Byte) : (Resp.only c).IsBare c := by simp [Resp.IsBare, Resp.NoBytes, Resp.NoFrame]

/-- A request whose operation raised an error answers with its code alone. -/
theorem answers_of_raised {s : State} {x : Except Halt Resp} {e : ErrorKind} (h : x = .error (.raised e)) :
    AnswersWith s (finish s x) (·.IsBare e.code) := ⟨Resp.only e.code, by rw [h]; rfl, only_isBare _⟩

/-- The record of a number holds it and nothing else. -/
theorem number_isNumber (v : Word64) : (Resp.number v).IsNumber v := by
  simp [Resp.IsNumber, Resp.NoBytes, Resp.NoFrame, Resp.number, statusOk]

/-- The record of bytes holds them and nothing else. -/
theorem bytes_isBytes (bs : List Byte) : (Resp.bytes bs).IsBytes bs := by
  simp [Resp.IsBytes, Resp.NoFrame, Resp.bytes, statusOk]

/-- A record holds one sequence of bytes. -/
theorem isBytes_inj {r : Resp} {bs bs' : List Byte} (h : r.IsBytes bs) (h' : r.IsBytes bs') : bs = bs' := by
  apply List.ext_getElem?
  intro j
  rw [← h.2.2.2.1 j, h'.2.2.2.1 j]

/-- A record holds one number. -/
theorem isNumber_inj {r : Resp} {v v' : Word64} (h : r.IsNumber v) (h' : r.IsNumber v') : v = v' := by
  have e := h.2.1.symm.trans h'.2.1
  cases e
  rfl

/-! ## Operand forms -/

/-- `uval(REQ.A)` where A was written. -/
theorem operandUnsigned_some {q : Req} {a : Word64} (h : q.a = some a) : operandUnsigned q = .ok a.toNat := by
  simp [operandUnsigned, h, need_some]

/-- `sval(REQ.A)` where A was written. -/
theorem operandSigned_some {q : Req} {a : Word64} (h : q.a = some a) : operandSigned q = .ok a.toInt := by
  simp [operandSigned, h, need_some]

/-- Everything reading IB_LEN can do. -/
theorem operandLen_eq (c : Config) (q : Req) :
    operandLen c q = match q.ibLen with
      | none => .error (.faulted (.unwrittenReqField .ibLen))
      | some n => if n ≤ c.maxFrameBytes then .ok n else .error (.raised .invalidParameter) := by
  unfold operandLen
  cases q.ibLen with
  | none => rfl
  | some n => by_cases h : n ≤ c.maxFrameBytes <;> simp [need_some, check, h]

/-- The bytes a decoder works on: an input of exactly `n` bytes that fits the buffer. -/
theorem operandBytes_eq_ok {c : Config} {q : Req} {n : Nat} {bs : List Byte} :
    operandBytes c q n = .ok bs ↔ bs.length = n ∧ n ≤ c.maxFrameBytes ∧ q.HoldsInput bs := by
  rw [operandBytes, operandLen_eq, Req.HoldsInput]
  cases hq : q.ibLen with
  | none => simp
  | some m =>
    by_cases h : m ≤ c.maxFrameBytes
    · simp only [h, if_true, ok_bind, bind_eq_ok, check_eq_ok, memRead_eq_ok, Nat.zero_add, Option.some.injEq]
      constructor
      · rintro ⟨-, rfl, hl, hr⟩
        exact ⟨hl, h, hl.symm, hl ▸ hr⟩
      · rintro ⟨rfl, -, rfl, hr⟩
        exact ⟨(), rfl, rfl, hr⟩
    · simp only [h, if_false, error_bind, reduceCtorEq, false_iff]
      rintro ⟨hl, hle, hm, -⟩
      rw [Option.some.injEq] at hm
      exact h (by omega)

/-- A length beyond the buffer is InvalidParameter, whatever IB holds (60_exceptions R90). -/
theorem operandBytes_of_long {c : Config} {q : Req} {n len : Nat} (h : q.ibLen = some len) (hm : c.maxFrameBytes < len) :
    operandBytes c q n = .error (.raised .invalidParameter) := by
  simp [operandBytes, operandLen_eq, h, Nat.not_le.mpr hm]

/-- A length that is not the encoding's is MalformedData, whatever IB holds. -/
theorem operandBytes_of_wrong_length {c : Config} {q : Req} {n len : Nat} (h : q.ibLen = some len)
    (hm : len ≤ c.maxFrameBytes) (hn : len ≠ n) : operandBytes c q n = .error (.raised .malformedData) := by
  simp [operandBytes, operandLen_eq, h, hm, check, hn]

/-- A request holds one input at most. -/
theorem holdsInput_unique {q : Req} {b b' : List Byte} (h : q.HoldsInput b) (h' : q.HoldsInput b') : b' = b := by
  have hl : b'.length = b.length := by simpa using (h.1.symm.trans h'.1).symm
  apply List.ext_getElem?
  intro j
  by_cases hj : j < b.length
  · exact (h'.2 j (by omega)).symm.trans (h.2 j hj)
  · rw [List.getElem?_eq_none (by omega), List.getElem?_eq_none (by omega)]

/-- Bytes copied from a response's OB into IB are the input then. -/
theorem holdsInput_of_isBytes {q : Req} {r : Resp} {bs : List Byte} (hb : r.IsBytes bs) (hl : q.ibLen = r.obLen)
    (h : ∀ j, j < bs.length → q.ib.read j = r.ob.read j) : q.HoldsInput bs :=
  ⟨hl.trans hb.2.2.1, fun j hj => (h j hj).trans (hb.2.2.2.1 j)⟩

/-- The frame operand's lengths where F_CLEN and F_PLEN were written (30_encoding R60). -/
theorem operandFrame_some {c : Config} {q : Req} {k : BitVec 2} {n : Nat} (hk : q.fClen = some k) (hn : q.fPlen = some n) :
    operandFrame c q =
      if (k.toNat = 1 ∨ k.toNat = 2) ∧ 5 + k.toNat + n ≤ c.maxFrameBytes then .ok (k.toNat, n)
      else .error (.raised .invalidParameter) := by
  rw [operandFrame, hk, hn, need_some, need_some, ok_bind, ok_bind]
  by_cases h : (k.toNat = 1 ∨ k.toNat = 2) ∧ 5 + k.toNat + n ≤ c.maxFrameBytes
  · rw [check_true h, if_pos h]; rfl
  · rw [check_false h, if_neg h]; rfl

/-- When WF_F holds, and what it gives. -/
theorem operandFrame_eq_ok {c : Config} {q : Req} {k n : Nat} :
    operandFrame c q = .ok (k, n) ↔
      ∃ kb : BitVec 2, q.fClen = some kb ∧ q.fPlen = some n ∧ kb.toNat = k ∧ (k = 1 ∨ k = 2) ∧ 5 + k + n ≤ c.maxFrameBytes := by
  simp only [operandFrame, bind_eq_ok, need_eq_ok, check_eq_ok, pure_ok, Except.ok.injEq, Prod.mk.injEq]
  constructor
  · rintro ⟨kb, hk, m, hm, -, hc, rfl, rfl⟩
    exact ⟨kb, hk, hm, rfl, hc.1, hc.2⟩
  · rintro ⟨kb, hk, hm, rfl, hc⟩
    exact ⟨kb, hk, n, hm, (), ⟨hc.1, hc.2⟩, rfl, rfl⟩

/-- The command bytes, one or two. -/
theorem operandCmd_eq_ok {q : Req} {k : Nat} {cmd : List Byte} :
    operandCmd q k = .ok cmd ↔
      (k = 2 ∧ ∃ c0 c1, q.fCmd0 = some c0 ∧ q.fCmd1 = some c1 ∧ cmd = [c0, c1]) ∨
      (k ≠ 2 ∧ ∃ c0, q.fCmd0 = some c0 ∧ cmd = [c0]) := by
  by_cases h : k = 2
  · simp only [operandCmd, h, if_true, bind_eq_ok, need_eq_ok, pure_ok, Except.ok.injEq]
    constructor
    · rintro ⟨c0, h0, c1, h1, rfl⟩; exact .inl ⟨trivial, c0, c1, h0, h1, rfl⟩
    · rintro (⟨-, c0, c1, h0, h1, rfl⟩ | ⟨h', -⟩)
      · exact ⟨c0, h0, c1, h1, rfl⟩
      · exact absurd rfl h'
  · simp only [operandCmd, h, if_false, bind_eq_ok, need_eq_ok, pure_ok, Except.ok.injEq]
    constructor
    · rintro ⟨c0, h0, rfl⟩; exact .inr ⟨h, c0, h0, rfl⟩
    · rintro (⟨h', -⟩ | ⟨-, c0, h0, rfl⟩)
      · exact absurd h' (by simp)
      · exact ⟨c0, h0, rfl⟩

/-! ## The dispatch -/

/-- What each operation answers, before the request ends: a function of CFG and REQ alone (10_state R28). -/
def respOf (c : Config) (q : Req) : Instr → Except Halt Resp
  | .encFreq => respEncFreq q
  | .decFreq => respDecFreq c q
  | .encLevel => respEncLevel q
  | .decLevel => respDecLevel c q
  | .encOffset dig => respEncOffset q dig
  | .decOffset dig => respDecOffset c q dig
  | .toBytes => respToBytes c q
  | .parse => respParse c q
  | .isAck => respIsCommand c q ackCode
  | .isNak => respIsCommand c q nakCode
  | .isEcho => respIsEcho c q

/-- Every meaning ends its request with what its operation answers. -/
theorem exec_eq_finish (i : Instr) (s : State) : exec i s = finish s (respOf s.cfg s.req i) := by cases i <;> rfl

/-- An operation changes RESP and nothing else. -/
theorem exec_eq_next {i : Instr} {s t : State} :
    exec i s = .next t ↔ ∃ r, recordOf (respOf s.cfg s.req i) = some r ∧ t = { s with resp := some r } := by
  rw [exec_eq_finish, finish_eq_next]

/-- No operation refuses (60_exceptions R93). -/
theorem exec_ne_refused (i : Instr) (s : State) (r : Refusal) : exec i s ≠ .refused r := by
  rw [exec_eq_finish]; exact finish_ne_refused s _ r

/-- Everything a transaction can do. -/
theorem transaction_cases (s : State) :
    (s.req.cmd = none ∧ transaction s = .fault (.unwrittenReqField .cmd)) ∨
    (∃ w e, s.req.cmd = some w ∧ decode w = .error e ∧ transaction s = .next (raiseError .illegalOperation s)) ∨
    (∃ w i, s.req.cmd = some w ∧ decode w = .ok i ∧ transaction s = exec i s) := by
  unfold transaction
  cases hc : s.req.cmd with
  | none => exact .inl ⟨rfl, rfl⟩
  | some w =>
    cases hd : decode w with
    | error e => exact .inr (.inl ⟨w, e, rfl, hd, by simp [hd]⟩)
    | ok i => exact .inr (.inr ⟨w, i, rfl, hd, by simp [hd]⟩)

/-- A transaction that answers changes RESP alone. -/
theorem transaction_next {s t : State} (h : transaction s = .next t) : ∃ r, t = { s with resp := some r } := by
  rcases transaction_cases s with ⟨-, e⟩ | ⟨w, k, -, -, e⟩ | ⟨w, i, -, -, e⟩
  · simp [e] at h
  · rw [e] at h
    exact ⟨_, (Host.Outcome.next.inj h).symm⟩
  · rw [e] at h
    obtain ⟨r, -, ht⟩ := exec_eq_next.mp h
    exact ⟨r, ht⟩

end Sys2Proof.Machine
end

