-- ==== Sys2Proof/Laws/Bcd.lean ====
section
/-! SUPPORT. Digits, BCD bytes and signed offsets, and when each BCD operation answers OK (40_bcd R65–R72). -/

namespace Sys2Proof.Machine

/-! ## Nibbles and digits -/

theorem digit_lt (m k : Nat) : digit m k < 10 := Nat.mod_lt _ (by decide)

theorem digit_zero (m : Nat) : digit m 0 = m % 10 := by simp [digit]

theorem digit_div (m k : Nat) : digit (m / 100) k = digit m (k + 2) := by
  rw [digit, digit, Nat.div_div_eq_div_mul, show (100 : Nat) = 10 ^ 2 from rfl, ← Nat.pow_add, Nat.add_comm]

theorem lowNibble_ofNat {hi lo : Nat} (hl : lo < 16) : lowNibble (BitVec.ofNat 8 (16 * hi + lo)) = lo := by
  rw [lowNibble, BitVec.toNat_ofNat]
  omega

theorem highNibble_ofNat {hi lo : Nat} (hh : hi < 16) (hl : lo < 16) : highNibble (BitVec.ofNat 8 (16 * hi + lo)) = hi := by
  rw [highNibble, BitVec.toNat_ofNat]
  omega

theorem lowNibble_bcdByte {hi lo : Nat} (hl : lo < 10) : lowNibble (bcdByte hi lo) = lo :=
  lowNibble_ofNat (by omega)

theorem highNibble_bcdByte {hi lo : Nat} (hh : hi < 10) (hl : lo < 10) : highNibble (bcdByte hi lo) = hi :=
  highNibble_ofNat (by omega) (by omega)

theorem bcdByte_nibbles (b : Byte) : bcdByte (highNibble b) (lowNibble b) = b := by
  apply BitVec.eq_of_toNat_eq
  rw [bcdByte, highNibble, lowNibble, BitVec.toNat_ofNat]
  have := b.isLt
  omega

theorem validPair_iff (b : Byte) : validPair b = true ↔ lowNibble b ≤ 9 ∧ highNibble b ≤ 9 := by simp [validPair]

theorem validPair_bcdByte {hi lo : Nat} (hh : hi < 10) (hl : lo < 10) : validPair (bcdByte hi lo) = true := by
  rw [validPair_iff, lowNibble_bcdByte hl, highNibble_bcdByte hh hl]
  omega

/-! ## BCD numbers -/

@[simp] theorem length_bcdBytes (m n : Nat) : (bcdBytes m n).length = n := by simp [bcdBytes]

/-- One byte more: the two lowest digits, then the bytes of the rest. -/
theorem bcdBytes_succ (m n : Nat) : bcdBytes m (n + 1) = bcdByte (digit m 1) (digit m 0) :: bcdBytes (m / 100) n := by
  simp only [bcdBytes, List.range_succ_eq_map, List.map_cons, List.map_map, digit_div]
  rfl

theorem bcdBytes_valid (m n : Nat) : (bcdBytes m n).all validPair = true := by
  rw [List.all_eq_true]
  intro b hb
  obtain ⟨j, -, rfl⟩ := List.mem_map.mp hb
  exact validPair_bcdByte (digit_lt _ _) (digit_lt _ _)

/-- What the bytes of a number hold. -/
theorem bcdValue_bcdBytes (m n : Nat) : bcdValue (bcdBytes m n) = m % 100 ^ n := by
  induction n generalizing m with
  | zero => simp [bcdBytes, bcdValue, Nat.mod_one]
  | succ n ih =>
    rw [bcdBytes_succ, bcdValue, highNibble_bcdByte (digit_lt _ _) (digit_lt _ _),
      lowNibble_bcdByte (digit_lt _ _), ih, digit_zero, digit, pow_one, pow_succ',
      Nat.mod_mul]
    omega

/-- The sum 40_bcd R66 writes. -/
theorem bcdValue_eq_sum (b : List Byte) :
    bcdValue b =
      ((List.range b.length).map fun j => (10 * ((b.getD j 0).toNat / 16) + (b.getD j 0).toNat % 16) * 100 ^ j).sum := by
  induction b with
  | nil => rfl
  | cons x b ih =>
    rw [bcdValue, ih, List.length_cons, List.range_succ_eq_map, List.map_cons, List.sum_cons, List.map_map,
      ← List.sum_map_mul_left]
    simp only [List.getD_cons_zero, pow_zero, mul_one, highNibble, lowNibble]
    congr 2
    apply List.map_congr_left
    intro j _
    simp only [Function.comp_apply, List.getD_cons_succ, pow_succ]
    ring

theorem bcdValue_lt {bs : List Byte} (h : bs.all validPair = true) : bcdValue bs < 100 ^ bs.length := by
  induction bs with
  | nil => simp [bcdValue]
  | cons b bs ih =>
    rw [List.all_cons, Bool.and_eq_true, validPair_iff] at h
    have := ih h.2
    rw [bcdValue, List.length_cons, pow_succ]
    omega

/-- Valid BCD bytes are the bytes of the number they hold. -/
theorem bcdBytes_bcdValue {bs : List Byte} (h : bs.all validPair = true) : bcdBytes (bcdValue bs) bs.length = bs := by
  induction bs with
  | nil => rfl
  | cons b bs ih =>
    rw [List.all_cons, Bool.and_eq_true, validPair_iff] at h
    obtain ⟨⟨hl, hh⟩, hbs⟩ := h
    rw [List.length_cons, bcdBytes_succ, bcdValue]
    have e1 : digit (10 * highNibble b + lowNibble b + 100 * bcdValue bs) 1 = highNibble b := by rw [digit]; omega
    have e0 : digit (10 * highNibble b + lowNibble b + 100 * bcdValue bs) 0 = lowNibble b := by rw [digit]; omega
    have eq : (10 * highNibble b + lowNibble b + 100 * bcdValue bs) / 100 = bcdValue bs := by omega
    rw [e1, e0, eq, ih hbs, bcdByte_nibbles]

/-! ## Signed offsets -/

@[simp] theorem length_offsetBytes (x : Int) (d : Nat) : (offsetBytes x d).length = offsetLen d := by simp [offsetBytes]

theorem getD_offsetBytes (x : Int) (d : Nat) {j : Nat} (hj : j < offsetLen d) :
    (offsetBytes x d).getD j 0 = offsetByte x d j := by
  simp [offsetBytes, List.getD, List.getElem?_map, List.getElem?_range hj]

/-- The number in an offset's byte: two digits, and the sign in the last byte, where the high digit is 0. -/
theorem toNat_offsetByte (x : Int) (d j : Nat) :
    (offsetByte x d j).toNat =
      16 * (if 2 * j + 1 < d then digit x.natAbs (2 * j + 1) else 0) + (if 2 * j < d then digit x.natAbs (2 * j) else 0) +
        (if j + 1 = offsetLen d ∧ x < 0 then 128 else 0) := by
  rw [offsetByte, BitVec.toNat_ofNat]
  have h1 := digit_lt x.natAbs (2 * j + 1)
  have h0 := digit_lt x.natAbs (2 * j)
  have hlast : j + 1 = offsetLen d → ¬ 2 * j + 1 < d := by rw [offsetLen]; omega
  apply Nat.mod_eq_of_lt
  split <;> split <;> split <;> omega

/-- Digit k of an offset stands in nibble k, sign or no sign. -/
theorem nib_offsetBytes (x : Int) (d : Nat) {k : Nat} (hk : k < d) : nib (offsetBytes x d) k = digit x.natAbs k := by
  have hj : k / 2 < offsetLen d := by rw [offsetLen]; omega
  have h1 := digit_lt x.natAbs (2 * (k / 2) + 1)
  have h0 := digit_lt x.natAbs (2 * (k / 2))
  have hlast : k / 2 + 1 = offsetLen d → ¬ 2 * (k / 2) + 1 < d := by rw [offsetLen]; omega
  rw [nib, getD_offsetBytes x d hj]
  by_cases hp : k % 2 = 0
  · have e : 2 * (k / 2) = k := by omega
    have hd := digit_lt x.natAbs k
    rw [if_pos hp, lowNibble, toNat_offsetByte, e, if_pos hk]
    split <;> split <;> omega
  · have e : 2 * (k / 2) + 1 = k := by omega
    have n1 : ¬ (k / 2 + 1 = offsetLen d ∧ x < 0) := fun h => hlast h.1 (by omega)
    rw [if_neg hp, highNibble, toNat_offsetByte, if_neg n1, e, if_pos hk, if_pos (by omega)]
    omega

/-- The magnitude of an offset's bytes. -/
theorem offsetMagnitude_congr {b : List Byte} {m : Nat} {d : Nat} (h : ∀ k, k < d → nib b k = digit m k) :
    offsetMagnitude b d = m % 10 ^ d := by
  induction d with
  | zero => simp [offsetMagnitude, Nat.mod_one]
  | succ d ih =>
    rw [offsetMagnitude, ih fun k hk => h k (by omega), h d (by omega), digit, pow_succ, Nat.mod_mul, Nat.mul_comm]

theorem offsetMagnitude_offsetBytes (x : Int) (d : Nat) : offsetMagnitude (offsetBytes x d) d = x.natAbs % 10 ^ d :=
  offsetMagnitude_congr fun _ hk => nib_offsetBytes x d hk

/-- The magnitude of canonical nibbles stays below ten to the digit count. -/
theorem offsetMagnitude_lt {b : List Byte} {d : Nat} (h : ∀ k, k < d → nib b k ≤ 9) : offsetMagnitude b d < 10 ^ d := by
  induction d with
  | zero => simp [offsetMagnitude]
  | succ d ih =>
    have h1 := ih fun k hk => h k (by omega)
    have h2 := h d (by omega)
    rw [offsetMagnitude, pow_succ]
    have : nib b d * 10 ^ d ≤ 9 * 10 ^ d := Nat.mul_le_mul_right _ h2
    omega

/-- The digits of a magnitude are its nibbles. -/
theorem digit_offsetMagnitude {b : List Byte} {d k : Nat} (h : ∀ k, k < d → nib b k ≤ 9) (hk : k < d) :
    digit (offsetMagnitude b d) k = nib b k := by
  induction d with
  | zero => omega
  | succ d ih =>
    have hlt := offsetMagnitude_lt (b := b) (d := d) fun k hk => h k (by omega)
    rw [offsetMagnitude]
    by_cases hkd : k = d
    · subst hkd
      rw [digit, Nat.add_mul_div_right _ _ (by positivity), Nat.div_eq_of_lt hlt, Nat.zero_add]
      have := h k (by omega)
      omega
    · have hk' : k < d := by omega
      rw [← ih (fun k hk => h k (by omega)) hk', digit, digit]
      have e : 10 ^ d = 10 ^ k * (10 * 10 ^ (d - k - 1)) := by
        rw [← pow_succ', ← pow_add]
        congr 1
        omega
      rw [e, Nat.mul_left_comm, Nat.add_mul_div_left _ _ (by positivity), Nat.mul_left_comm, Nat.add_mul_mod_self_left]

/-- What DEC_OFFSET accepts (40_bcd R71): the checks it makes on a sequence of the right length. -/
structure OffsetCanonical (b : List Byte) (d : Nat) : Prop where
  length : b.length = offsetLen d
  pairs : (b.take (offsetLen d - 1)).all validPair = true
  unused : signUnused (signByte b d) = 0
  oddDigit : d % 2 = 1 → lowNibble (signByte b d) ≤ 9
  evenZero : d % 2 = 0 → lowNibble (signByte b d) = 0
  notNegativeZero : ¬(signSet (signByte b d) = true ∧ offsetMagnitude b d = 0)

/-- The sum 40_bcd R71 writes. -/
theorem offsetMagnitude_eq_sum (b : List Byte) (d : Nat) : offsetMagnitude b d = magnitudeOf b d := by
  induction d with
  | zero => rfl
  | succ d ih =>
    have hn : nib b d = nibbleOf b d := by
      rw [nib, nibbleOf]
      split
      · rfl
      · rw [highNibble]
        congr 3
        omega
    rw [offsetMagnitude, ih, magnitudeOf, magnitudeOf, List.range_succ, List.map_append, List.sum_append, hn]
    simp

theorem signByte_eq (b : List Byte) (d : Nat) : signByte b d = b.getD (d / 2) 0 := rfl

/-- Canonical bytes hold decimal digits only. -/
theorem OffsetCanonical.nib_le {b : List Byte} {d : Nat} (h : OffsetCanonical b d) {k : Nat} (hk : k < d) : nib b k ≤ 9 := by
  by_cases hj : k / 2 < d / 2
  · have hlen : k / 2 < b.length := by rw [h.length, offsetLen]; omega
    have hmem : b.getD (k / 2) 0 ∈ b.take (offsetLen d - 1) := by
      rw [List.mem_take_iff_getElem]
      exact ⟨k / 2, by rw [h.length, offsetLen]; omega, by simp [List.getD, hlen]⟩
    obtain ⟨h0, h1⟩ := (validPair_iff _).mp (List.all_eq_true.mp h.pairs _ hmem)
    rw [nib]
    split <;> assumption
  · have hodd : d % 2 = 1 := by omega
    have e : k / 2 = d / 2 := by omega
    rw [nib, if_pos (by omega), e, ← signByte_eq]
    exact h.oddDigit hodd

/-- The absolute value of an offset is its magnitude. -/
theorem natAbs_offsetValue (b : List Byte) (d : Nat) : (offsetValue b d).natAbs = offsetMagnitude b d := by
  rw [offsetValue]
  split <;> simp

/-- A canonical offset is negative exactly when its sign is set. -/
theorem OffsetCanonical.neg_iff {b : List Byte} {d : Nat} (h : OffsetCanonical b d) :
    offsetValue b d < 0 ↔ signSet (signByte b d) = true := by
  have hz := h.notNegativeZero
  rw [offsetValue]
  by_cases hs : signSet (signByte b d) = true
  · have : offsetMagnitude b d ≠ 0 := fun e => hz ⟨hs, e⟩
    simp only [hs, if_true, iff_true]
    omega
  · simp only [hs, Bool.false_eq_true, if_false, iff_false]
    omega

/-- A canonical offset lies in the encoder's domain. -/
theorem OffsetCanonical.natAbs_le {b : List Byte} {d : Nat} (h : OffsetCanonical b d) :
    (offsetValue b d).natAbs ≤ 10 ^ d - 1 := by
  have := offsetMagnitude_lt (b := b) (d := d) fun _ hk => h.nib_le hk
  rw [natAbs_offsetValue]
  omega

/-- Canonical bytes are the bytes of the offset they hold. -/
theorem OffsetCanonical.bytes_eq {b : List Byte} {d : Nat} (h : OffsetCanonical b d) :
    offsetBytes (offsetValue b d) d = b := by
  apply List.ext_getElem
  · rw [length_offsetBytes, h.length]
  intro j hj hjb
  rw [length_offsetBytes] at hj
  have eL : (offsetBytes (offsetValue b d) d)[j]'(by rwa [length_offsetBytes]) = offsetByte (offsetValue b d) d j := by
    simp [offsetBytes]
  have eR : b[j] = b.getD j 0 := by simp [List.getD, hjb]
  rw [eL, eR]
  apply BitVec.eq_of_toNat_eq
  rw [toNat_offsetByte, natAbs_offsetValue]
  simp only [h.neg_iff]
  have hdig : ∀ k, k < d → digit (offsetMagnitude b d) k = nib b k := fun k hk =>
    digit_offsetMagnitude (fun _ hk => h.nib_le hk) hk
  have hlow : nib b (2 * j) = lowNibble (b.getD j 0) := by
    rw [nib, if_pos (by omega), Nat.mul_div_cancel_left _ (by decide)]
  have hhigh : nib b (2 * j + 1) = highNibble (b.getD j 0) := by
    rw [nib, if_neg (by omega)]
    congr 2
    omega
  have hb := (b.getD j 0).isLt
  rw [offsetLen] at hj
  by_cases hjn : j < d / 2
  · have hn : ¬(j + 1 = offsetLen d ∧ signSet (signByte b d) = true) := fun e => by
      have := e.1
      rw [offsetLen] at this
      omega
    rw [if_pos (by omega), if_pos (by omega), if_neg hn, hdig _ (by omega), hdig _ (by omega), hlow, hhigh, lowNibble,
      highNibble]
    omega
  · have hjd : j = d / 2 := by omega
    have ht : b.getD j 0 = signByte b d := by rw [hjd, signByte_eq]
    have hu := h.unused
    rw [← ht, signUnused] at hu
    rw [if_neg (by omega), ← ht, signSet]
    have hlowVal : (if 2 * j < d then digit (offsetMagnitude b d) (2 * j) else 0) = lowNibble (b.getD j 0) := by
      split
      · rw [hdig _ (by assumption), hlow]
      · rw [ht, h.evenZero (by omega)]
    rw [hlowVal, lowNibble]
    have hn : j + 1 = offsetLen d := by rw [offsetLen]; omega
    simp only [hn, true_and, decide_eq_true_eq]
    split <;> omega

/-- The encoder's bytes are canonical. -/
theorem offsetCanonical_offsetBytes {x : Int} {d : Nat} (hx : x.natAbs ≤ 10 ^ d - 1) :
    OffsetCanonical (offsetBytes x d) d := by
  have hlast : signByte (offsetBytes x d) d = offsetByte x d (d / 2) := by
    rw [signByte_eq, getD_offsetBytes x d (by rw [offsetLen]; omega)]
  have h1 := digit_lt x.natAbs (2 * (d / 2))
  have hbyte := toNat_offsetByte x d (d / 2)
  rw [if_neg (show ¬ 2 * (d / 2) + 1 < d by omega)] at hbyte
  refine ⟨length_offsetBytes x d, ?_, ?_, ?_, ?_, ?_⟩
  · rw [List.all_eq_true]
    intro b hb
    obtain ⟨j, hj, rfl⟩ := List.mem_take_iff_getElem.mp hb
    rw [length_offsetBytes, offsetLen] at hj
    have e : (offsetBytes x d)[j]'(by rw [length_offsetBytes, offsetLen]; omega) = offsetByte x d j := by simp [offsetBytes]
    rw [e, validPair_iff, lowNibble, highNibble, toNat_offsetByte, if_pos (by omega), if_pos (by omega),
      if_neg (by rw [offsetLen]; omega)]
    have := digit_lt x.natAbs (2 * j)
    have := digit_lt x.natAbs (2 * j + 1)
    omega
  · rw [hlast, signUnused, hbyte]
    split <;> split <;> omega
  · intro _
    rw [hlast, lowNibble, hbyte]
    split <;> split <;> omega
  · intro hd
    rw [hlast, lowNibble, hbyte, if_neg (by omega)]
    split <;> omega
  · rintro ⟨hs, hz⟩
    have hpow : 0 < 10 ^ d := by positivity
    rw [offsetMagnitude_offsetBytes, Nat.mod_eq_of_lt (by omega)] at hz
    have hx0 : ¬ x < 0 := by omega
    rw [hlast, signSet, decide_eq_true_eq, hbyte, if_neg (show ¬(d / 2 + 1 = offsetLen d ∧ x < 0) from fun h => hx0 h.2)] at hs
    split at hs <;> omega

/-- Decoding an encoded offset gives it back. -/
theorem offsetValue_offsetBytes {x : Int} {d : Nat} (hx : x.natAbs ≤ 10 ^ d - 1) : offsetValue (offsetBytes x d) d = x := by
  have hpow : 0 < 10 ^ d := by positivity
  have hc := offsetCanonical_offsetBytes hx
  have hm : offsetMagnitude (offsetBytes x d) d = x.natAbs := by
    rw [offsetMagnitude_offsetBytes, Nat.mod_eq_of_lt (by omega)]
  have hs : signSet (signByte (offsetBytes x d) d) = true ↔ x < 0 := by
    rw [signByte_eq, getD_offsetBytes x d (by rw [offsetLen]; omega), signSet, decide_eq_true_eq, toNat_offsetByte,
      if_neg (show ¬ 2 * (d / 2) + 1 < d by omega)]
    have := digit_lt x.natAbs (2 * (d / 2))
    have hn : d / 2 + 1 = offsetLen d := rfl
    simp only [hn, true_and]
    split <;> split <;> omega
  rw [offsetValue, hm]
  by_cases h : x < 0
  · rw [if_pos (hs.mpr h)]; omega
  · rw [if_neg (fun e => h (hs.mp e))]; omega

/-! ## What each operation answers -/

theorem respEncFreq_some {q : Req} {a : Word64} (h : q.a = some a) :
    respEncFreq q =
      if a.toNat ≤ maxFreq then .ok (Resp.bytes (bcdBytes a.toNat freqBytes)) else .error (.raised .invalidParameter) := by
  rw [respEncFreq, operandUnsigned_some h]
  by_cases hc : a.toNat ≤ maxFreq <;> simp [hc, check]

theorem respEncLevel_some {q : Req} {a : Word64} (h : q.a = some a) :
    respEncLevel q =
      if a.toNat ≤ maxLevel then
        .ok (Resp.bytes [bcdByte (digit a.toNat 1) (digit a.toNat 0), bcdByte 0 (digit a.toNat 2)])
      else .error (.raised .invalidParameter) := by
  rw [respEncLevel, operandUnsigned_some h]
  by_cases hc : a.toNat ≤ maxLevel <;> simp [hc, check]

theorem respEncOffset_some {q : Req} {a : Word64} {d : Nat} (h : q.a = some a) :
    respEncOffset q d =
      if d ≠ 0 ∧ a.toInt.natAbs ≤ 10 ^ d - 1 then .ok (Resp.bytes (offsetBytes a.toInt d))
      else .error (.raised .invalidParameter) := by
  rw [respEncOffset, operandSigned_some h]
  by_cases hd : d = 0
  · simp [hd, check]
  · by_cases hc : a.toInt.natAbs ≤ 10 ^ d - 1 <;> simp [hd, hc, check]

/-- DEC_FREQ answers OK exactly on five valid BCD bytes. -/
theorem respDecFreq_eq_ok {c : Config} {q : Req} {r : Resp} :
    respDecFreq c q = .ok r ↔
      ∃ b, b.length = freqBytes ∧ freqBytes ≤ c.maxFrameBytes ∧ q.HoldsInput b ∧ b.all validPair = true ∧
        r = Resp.number (BitVec.ofNat 64 (bcdValue b)) := by
  simp only [respDecFreq, bind_eq_ok, operandBytes_eq_ok, check_eq_ok, pure_ok, Except.ok.injEq]
  constructor
  · rintro ⟨b, ⟨hl, hm, hi⟩, -, hv, rfl⟩; exact ⟨b, hl, hm, hi, hv, rfl⟩
  · rintro ⟨b, hl, hm, hi, hv, rfl⟩; exact ⟨b, ⟨hl, hm, hi⟩, (), hv, rfl⟩

/-- DEC_LEVEL answers OK exactly on two valid BCD bytes of a level. -/
theorem respDecLevel_eq_ok {c : Config} {q : Req} {r : Resp} :
    respDecLevel c q = .ok r ↔
      ∃ b, b.length = levelBytes ∧ levelBytes ≤ c.maxFrameBytes ∧ q.HoldsInput b ∧ b.all validPair = true ∧
        bcdValue b ≤ maxLevel ∧ r = Resp.number (BitVec.ofNat 64 (bcdValue b)) := by
  simp only [respDecLevel, bind_eq_ok, operandBytes_eq_ok, check_eq_ok, pure_ok, Except.ok.injEq]
  constructor
  · rintro ⟨b, ⟨hl, hm, hi⟩, -, hv, -, hle, rfl⟩; exact ⟨b, hl, hm, hi, hv, hle, rfl⟩
  · rintro ⟨b, hl, hm, hi, hv, hle, rfl⟩; exact ⟨b, ⟨hl, hm, hi⟩, (), hv, (), hle, rfl⟩

/-- DEC_OFFSET answers OK exactly on the canonical bytes. -/
theorem respDecOffset_eq_ok {c : Config} {q : Req} {d : Nat} {r : Resp} :
    respDecOffset c q d = .ok r ↔
      d ≠ 0 ∧ ∃ b, offsetLen d ≤ c.maxFrameBytes ∧ q.HoldsInput b ∧ OffsetCanonical b d ∧
        r = Resp.number (BitVec.ofInt 64 (offsetValue b d)) := by
  simp only [respDecOffset, bind_eq_ok, operandBytes_eq_ok, check_eq_ok, pure_ok, Except.ok.injEq]
  constructor
  · rintro ⟨-, hd, b, ⟨hl, hm, hi⟩, -, h1, -, h2, -, h3, -, h4, -, h5, rfl⟩
    exact ⟨hd, b, hm, hi, ⟨hl, h1, h2, h3, h4, h5⟩, rfl⟩
  · rintro ⟨hd, b, hm, hi, hc, rfl⟩
    exact ⟨(), hd, b, ⟨hc.length, hm, hi⟩, (), hc.pairs, (), hc.unused, (), hc.oddDigit, (), hc.evenZero, (),
      hc.notNegativeZero, rfl⟩

end Sys2Proof.Machine
end

