-- ==== Sys2Proof/Laws/Decode.lean ====
section
/-! SUPPORT. What the decoder accepts and what it rejects, field by field (30_encoding R53). -/

namespace Sys2Proof

/-- The table gives an operation with the code asked for, and DIG where the operation has digits (30_encoding R52). -/
theorem opTable_eq_some {op dig : Nat} {i : Instr} (h : opTable op dig = some i) :
    i.opCode = op ∧ i.digits = (if op = 5 ∨ op = 6 then dig else 0) ∧ 1 ≤ op ∧ op < 12 := by
  unfold opTable at h
  split at h <;> cases h <;> simp [Instr.opCode, Instr.digits]

/-- The table has a row for every code from 1 to 0xB, and only for those. -/
theorem opTable_isSome (op dig : Nat) : (opTable op dig).isSome ↔ 1 ≤ op ∧ op < 12 := by
  constructor
  · intro h
    obtain ⟨i, hi⟩ := Option.isSome_iff_exists.mp h
    exact (opTable_eq_some hi).2.2
  · rintro ⟨h1, h2⟩
    interval_cases op <;> rfl

/-- The words that decode, and to what. -/
theorem decode_eq_ok {w : CmdWord} {i : Instr} :
    decode w = .ok i ↔
      rsvField w = 0 ∧ opTable (opField w) (digField w) = some i ∧ ¬(opField w ≠ 5 ∧ opField w ≠ 6 ∧ digField w ≠ 0) := by
  unfold decode
  by_cases h1 : rsvField w = 0
  · rw [if_neg (not_not.mpr h1)]
    cases ht : opTable (opField w) (digField w) with
    | none => simp
    | some j =>
      by_cases h3 : opField w ≠ 5 ∧ opField w ≠ 6 ∧ digField w ≠ 0
      · simp [h3]
      · simp only [if_neg h3, Except.ok.injEq, Option.some.injEq, h1, true_and]
        tauto
  · simp [h1]

/-- The words that do not decode. -/
theorem decode_eq_error {w : CmdWord} :
    (∃ e, decode w = .error e) ↔
      rsvField w ≠ 0 ∨ opField w = 0 ∨ 12 ≤ opField w ∨ (opField w ≠ 5 ∧ opField w ≠ 6 ∧ digField w ≠ 0) := by
  have key : (∃ e, decode w = .error e) ↔ ¬∃ i, decode w = .ok i := by
    cases decode w <;> simp
  rw [key]
  constructor
  · intro h
    by_contra hn
    simp only [not_or] at hn
    obtain ⟨n1, n2, n3, n4⟩ := hn
    obtain ⟨i, hi⟩ := Option.isSome_iff_exists.mp ((opTable_isSome (opField w) (digField w)).mpr ⟨by omega, by omega⟩)
    exact h ⟨i, decode_eq_ok.mpr ⟨not_not.mp n1, hi, n4⟩⟩
  · rintro h ⟨i, hi⟩
    obtain ⟨h1, h2, h3⟩ := decode_eq_ok.mp hi
    obtain ⟨-, -, hl, hu⟩ := opTable_eq_some h2
    rcases h with h | h | h | h
    · exact h h1
    · omega
    · omega
    · exact h3 h

end Sys2Proof
end

