-- ==== Sys2Proof/Laws/Frame.lean ====
section
/-! SUPPORT. The wire form, the split rule, and when each frame operation answers OK (41_frame R76–R87). -/

namespace Sys2Proof.Machine

/-! ## The wire form -/

theorem wireForm_eq (dest src : Byte) (cmd payload : List Byte) :
    wireForm dest src cmd payload = preambleByte :: preambleByte :: dest :: src :: (cmd ++ payload ++ [terminator]) := by
  simp [wireForm]

@[simp] theorem length_wireForm (dest src : Byte) (cmd payload : List Byte) :
    (wireForm dest src cmd payload).length = 5 + cmd.length + payload.length := by
  simp [wireForm]
  omega

/-- A sequence that passes PARSE's checks is the wire form of its parts, wherever its body is cut (41_frame R76). -/
theorem wireForm_of_frame {b : List Byte} (hl : minFrameBytes ≤ b.length) (h0 : b.getD 0 0 = preambleByte)
    (h1 : b.getD 1 0 = preambleByte) (ht : b.getD (b.length - 1) 0 = terminator) {k : Nat} (hk : k ≤ b.length - 5) :
    wireForm (b.getD 2 0) (b.getD 3 0) ((b.drop 4).take k) ((b.drop (4 + k)).take (b.length - 5 - k)) = b := by
  rw [minFrameBytes] at hl
  obtain ⟨x0, x1, x2, x3, rest, rfl⟩ : ∃ x0 x1 x2 x3 rest, b = x0 :: x1 :: x2 :: x3 :: rest := by
    match b, hl with
    | x0 :: x1 :: x2 :: x3 :: rest, _ => exact ⟨x0, x1, x2, x3, rest, rfl⟩
  simp only [List.length_cons] at hl hk ⊢
  have e0 : x0 = preambleByte := h0
  have e1 : x1 = preambleByte := h1
  obtain ⟨body, t, rfl⟩ : ∃ body t, rest = body ++ [t] := by
    rcases List.eq_nil_or_concat rest with h | ⟨l, a, h⟩
    · simp [h] at hl
    · exact ⟨l, a, by simpa using h⟩
  have et : t = terminator := by
    simpa [List.getD] using ht
  subst e0 e1 et
  rw [wireForm_eq]
  simp only [List.length_append, List.length_cons, List.length_nil] at hk ⊢
  have hk' : k ≤ body.length := by omega
  have hlen : body.length + (0 + 1) + 1 + 1 + 1 + 1 - 5 - k = body.length - k := by omega
  rw [hlen, Nat.add_comm 4 k]
  simp only [List.drop_succ_cons, List.drop_zero, List.getD_cons_succ, List.getD_cons_zero]
  rw [List.take_append_of_le_length hk', List.drop_append_of_le_length hk',
    List.take_append_of_le_length (by simp), List.take_of_length_le (l := body.drop k) (by simp),
    List.take_append_drop]

/-! ## The split rule -/

theorem cmdLen_cases (c : Config) (first : Byte) (n : Nat) :
    (cmdLen c first n = 2 ∧ first ∈ c.subcmdCodes ∧ 2 ≤ n - 5) ∨
    (cmdLen c first n = 1 ∧ ¬(first ∈ c.subcmdCodes ∧ 2 ≤ n - 5)) := by
  rw [cmdLen]
  by_cases h : first ∈ c.subcmdCodes ∧ 2 ≤ n - 5
  · exact .inl ⟨if_pos h, h⟩
  · exact .inr ⟨if_neg h, h⟩

/-- A command is never longer than the body. -/
theorem cmdLen_le {c : Config} {first : Byte} {n : Nat} (h : minFrameBytes ≤ n) : cmdLen c first n ≤ n - 5 := by
  rw [minFrameBytes] at h
  rcases cmdLen_cases c first n with ⟨e, -, h2⟩ | ⟨e, -⟩ <;> omega

/-! ## What each operation answers -/

/-- The record of a parsed frame holds its parts and nothing else. -/
theorem frame_isFrame {b : List Byte} {k : Nat} (hk : k = 1 ∨ k = 2) (hl : k ≤ b.length - 5) :
    (Resp.frame b k).IsFrame (b.getD 2 0) (b.getD 3 0) ((b.drop 4).take k)
      ((b.drop (4 + k)).take (b.length - 5 - k)) := by
  have hlen : ((b.drop 4).take k).length = k := by simp; omega
  have hpay : ((b.drop (4 + k)).take (b.length - 5 - k)).length = b.length - 5 - k := by simp; omega
  have g : ∀ j, j < k → ((b.drop 4).take k)[j]? = some (b.getD (4 + j) 0) := fun j hj => by
    rw [List.getElem?_take, if_pos hj, List.getElem?_drop, List.getD]
    have : 4 + j < b.length := by omega
    simp [this]
  refine ⟨rfl, rfl, ⟨rfl, fun _ => rfl⟩, rfl, rfl, by rw [hlen]; rfl, (g 0 (by omega)).symm, ?_, by rw [hpay]; rfl,
    read_memWrite_nil _⟩
  rcases hk with rfl | rfl
  · exact (List.getElem?_eq_none (le_of_eq hlen)).symm
  · exact (g 1 (by omega)).symm

/-- TOBYTES answers OK exactly on a frame operand whose wire form fits (41_frame R78). -/
theorem respToBytes_eq_ok {c : Config} {q : Req} {r : Resp} :
    respToBytes c q = .ok r ↔
      ∃ dest src cmd payload, q.HoldsFrame dest src cmd payload ∧
        5 + cmd.length + payload.length ≤ c.maxFrameBytes ∧ r = Resp.bytes (wireForm dest src cmd payload) := by
  simp only [respToBytes, bind_eq_ok, Prod.exists, operandFrame_eq_ok, operandCmd_eq_ok, memRead_eq_ok, need_eq_ok, pure_ok,
    Except.ok.injEq, Nat.zero_add]
  constructor
  · rintro ⟨k, n, ⟨kb, hkb, hn, hk, hk12, hfit⟩, cmd, hcmd, payload, ⟨rfl, hp⟩, dest, hd, src, hs, rfl⟩
    have hkb' : kb = BitVec.ofNat 2 k := by rw [← hk, BitVec.ofNat_toNat, BitVec.setWidth_eq]
    rcases hcmd with ⟨rfl, c0, c1, h0, h1, rfl⟩ | ⟨hne, c0, h0, rfl⟩
    · exact ⟨dest, src, [c0, c1], payload, ⟨hd, hs, .inr rfl, by rw [hkb, hkb']; rfl, h0, fun _ => h1, hn, hp⟩, hfit, rfl⟩
    · obtain rfl : k = 1 := by omega
      exact ⟨dest, src, [c0], payload, ⟨hd, hs, .inl rfl, by rw [hkb, hkb']; rfl, h0, by simp, hn, hp⟩, hfit, rfl⟩
  · rintro ⟨dest, src, cmd, payload, ⟨hd, hs, hlen, hk, h0, h1, hn, hp⟩, hfit, rfl⟩
    have hto : (BitVec.ofNat 2 cmd.length).toNat = cmd.length := by rw [BitVec.toNat_ofNat]; omega
    refine ⟨cmd.length, payload.length, ⟨_, hk, hn, hto, hlen, hfit⟩, cmd, ?_, payload, ⟨rfl, hp⟩, dest, hd, src, hs, rfl⟩
    match cmd, hlen with
    | [c0], _ => exact .inr ⟨by simp, c0, h0, rfl⟩
    | [c0, c1], _ => exact .inl ⟨rfl, c0, c1, h0, h1 rfl, rfl⟩

/-- PARSE answers OK exactly on a sequence with preamble, terminator and length in order (41_frame R80). -/
theorem respParse_eq_ok {c : Config} {q : Req} {r : Resp} :
    respParse c q = .ok r ↔
      ∃ b, q.HoldsInput b ∧ b.length ≤ c.maxFrameBytes ∧ minFrameBytes ≤ b.length ∧ b.getD 0 0 = preambleByte ∧
        b.getD 1 0 = preambleByte ∧ b.getD (b.length - 1) 0 = terminator ∧
        r = Resp.frame b (cmdLen c (b.getD 4 0) b.length) := by
  rw [respParse, operandLen_eq]
  cases hq : q.ibLen with
  | none => simp [Req.HoldsInput, hq]
  | some n =>
    by_cases hn : n ≤ c.maxFrameBytes
    · simp only [hn, if_true, ok_bind, bind_eq_ok, check_eq_ok, memRead_eq_ok, Nat.zero_add, pure_ok, Except.ok.injEq,
        Req.HoldsInput, hq, Option.some.injEq]
      constructor
      · rintro ⟨-, hmin, b, ⟨rfl, hr⟩, -, ⟨h0, h1⟩, -, ht, rfl⟩
        exact ⟨b, ⟨rfl, hr⟩, hn, hmin, h0, h1, ht, rfl⟩
      · rintro ⟨b, ⟨rfl, hr⟩, -, hmin, h0, h1, ht, rfl⟩
        exact ⟨(), hmin, b, ⟨rfl, hr⟩, (), ⟨h0, h1⟩, (), ht, rfl⟩
    · simp only [hn, if_false, error_bind, reduceCtorEq, false_iff, Req.HoldsInput, hq, Option.some.injEq]
      rintro ⟨b, ⟨rfl, -⟩, hle, -⟩
      exact hn hle

/-- PARSE of a wire form whose command has the length the split rule gives returns its parts (41_frame R76, R81). -/
theorem respParse_wireForm {c : Config} {q : Req} {dest src c0 : Byte} {cs payload : List Byte}
    (hi : q.HoldsInput (wireForm dest src (c0 :: cs) payload)) (hf : 6 + cs.length + payload.length ≤ c.maxFrameBytes)
    (hk : cmdLen c c0 (6 + cs.length + payload.length) = cs.length + 1) :
    ∃ r, respParse c q = .ok r ∧ r.IsFrame dest src (c0 :: cs) payload := by
  have hlen : (wireForm dest src (c0 :: cs) payload).length = 6 + cs.length + payload.length := by
    simp
    omega
  have ht : (wireForm dest src (c0 :: cs) payload).getD (6 + cs.length + payload.length - 1) 0 = terminator := by
    rw [wireForm, List.getD,
      show 6 + cs.length + payload.length - 1 =
        ([preambleByte, preambleByte] ++ [dest] ++ [src] ++ (c0 :: cs) ++ payload).length by simp; omega,
      List.getElem?_concat_length]
    rfl
  have hk12 : cs.length + 1 = 1 ∨ cs.length + 1 = 2 := by
    rcases cmdLen_cases c c0 (6 + cs.length + payload.length) with ⟨e, -⟩ | ⟨e, -⟩ <;> omega
  refine ⟨_, respParse_eq_ok.mpr ⟨_, hi, by rw [hlen]; exact hf, by rw [hlen, minFrameBytes]; omega, rfl, rfl, ?_, rfl⟩, ?_⟩
  · rw [hlen]; exact ht
  · have h := frame_isFrame (b := wireForm dest src (c0 :: cs) payload) hk12 (by rw [hlen]; omega)
    have e4 : (wireForm dest src (c0 :: cs) payload).getD 4 0 = c0 := rfl
    have ecmd : ((wireForm dest src (c0 :: cs) payload).drop 4).take (cs.length + 1) = c0 :: cs := by
      rw [wireForm_eq]
      simp
    have epay : ((wireForm dest src (c0 :: cs) payload).drop (4 + (cs.length + 1))).take
        (6 + cs.length + payload.length - 5 - (cs.length + 1)) = payload := by
      rw [wireForm_eq, Nat.add_comm 4,
        show 6 + cs.length + payload.length - 5 - (cs.length + 1) = payload.length by omega]
      simp
    rw [e4, hlen, hk]
    rw [hlen, ecmd, epay] at h
    exact h

/-- IS_ACK and IS_NAK answer OK exactly where WF_F holds (41_frame R82, R83). -/
theorem respIsCommand_eq_ok {c : Config} {q : Req} {code : Byte} {r : Resp} :
    respIsCommand c q code = .ok r ↔
      ∃ (k : BitVec 2) (n : Nat) (c0 : Byte), q.fClen = some k ∧ q.fPlen = some n ∧ q.fCmd0 = some c0 ∧
        (k.toNat = 1 ∨ k.toNat = 2) ∧ 5 + k.toNat + n ≤ c.maxFrameBytes ∧
        r = Resp.number (answerBit (decide (k.toNat = 1 ∧ c0 = code))) := by
  simp only [respIsCommand, bind_eq_ok, Prod.exists, operandFrame_eq_ok, need_eq_ok, pure_ok, Except.ok.injEq]
  constructor
  · rintro ⟨_, n, ⟨kb, hk, hn, rfl, hk12, hfit⟩, c0, h0, rfl⟩
    exact ⟨kb, n, c0, hk, hn, h0, hk12, hfit, rfl⟩
  · rintro ⟨kb, n, c0, hk, hn, h0, hk12, hfit, rfl⟩
    exact ⟨_, n, ⟨kb, hk, hn, rfl, hk12, hfit⟩, c0, h0, rfl⟩

/-- IS_ECHO answers OK exactly where WF_F holds (41_frame R84). -/
theorem respIsEcho_eq_ok {c : Config} {q : Req} {r : Resp} :
    respIsEcho c q = .ok r ↔
      ∃ (k : BitVec 2) (n : Nat) (src dest : Byte), q.fClen = some k ∧ q.fPlen = some n ∧ q.fSrc = some src ∧
        q.fDest = some dest ∧ (k.toNat = 1 ∨ k.toNat = 2) ∧ 5 + k.toNat + n ≤ c.maxFrameBytes ∧
        r = Resp.number (answerBit (decide (src = c.controllerAddr ∧ dest ≠ c.controllerAddr))) := by
  simp only [respIsEcho, bind_eq_ok, Prod.exists, operandFrame_eq_ok, need_eq_ok, pure_ok, Except.ok.injEq]
  constructor
  · rintro ⟨_, n, ⟨kb, hk, hn, rfl, hk12, hfit⟩, src, hs, dest, hd, rfl⟩
    exact ⟨kb, n, src, dest, hk, hn, hs, hd, hk12, hfit, rfl⟩
  · rintro ⟨kb, n, src, dest, hk, hn, hs, hd, hk12, hfit, rfl⟩
    exact ⟨_, n, ⟨kb, hk, hn, rfl, hk12, hfit⟩, src, hs, dest, hd, rfl⟩

end Sys2Proof.Machine
end

