-- ==== Sys2Proof/Laws/Response.lean ====
section
/-! SUPPORT. What record each operation can leave, and which error it can raise (30_encoding R58, 60_exceptions R88). -/

namespace Sys2Proof.Machine

/-- A byte of a sequence exists exactly below its length. -/
theorem isSome_getElem?_iff (v : List Byte) (j : Nat) : (v[j]?).isSome ↔ j < v.length := by simp

/-- Every record of a completed operation: bytes, a number, or a frame, with the operations that give it (30_encoding R58). -/
theorem respOf_ok_cases {c : Config} {q : Req} {i : Instr} {r : Resp} (h : respOf c q i = .ok r) :
   (∃ bs, r = Resp.bytes bs ∧ ((i = .encFreq ∧ bs.length = 5) ∨ (i = .encLevel ∧ bs.length = 2) ∨ (∃ d, i = .encOffset d ∧
       bs.length = d/2+1 ∧ d ≠ 0) ∨
       (i = .toBytes ∧ bs.length ≤ c.maxFrameBytes ∧ ∃ (k : BitVec 2) (n : Nat), q.fClen = some k ∧ q.fPlen = some n ∧
           bs.length = 5 + k.toNat + n))) ∨
   (∃ v, r = Resp.number v ∧ (i = .decFreq ∨ i = .decLevel ∨ (∃ d, i = .decOffset d) ∨ ((i = .isAck ∨ i = .isNak ∨
       i = .isEcho) ∧ (v = 0 ∨ v = 1)))) ∨
   (∃ (b : List Byte) (k : Nat), r = Resp.frame b k ∧ i = .parse ∧ (k = 1 ∨ k = 2) ∧ k ≤ b.length - 5 ∧
       b.length ≤ c.maxFrameBytes) := by
  have hbit : ∀ b, answerBit b = 0 ∨ answerBit b = 1 := by decide
  cases i with
  | encFreq =>
    left
    cases ha : q.a with
    | none => simp [respOf, respEncFreq, operandUnsigned, ha, need] at h
    | some a =>
      rw [respOf, respEncFreq_some ha] at h
      split at h
      · cases h; exact ⟨_, rfl, .inl ⟨rfl, by simp [freqBytes]⟩⟩
      · cases h
  | encLevel =>
    left
    cases ha : q.a with
    | none => simp [respOf, respEncLevel, operandUnsigned, ha, need] at h
    | some a =>
      rw [respOf, respEncLevel_some ha] at h
      split at h
      · cases h; exact ⟨_, rfl, .inr (.inl ⟨rfl, rfl⟩)⟩
      · cases h
  | encOffset d =>
    left
    cases ha : q.a with
    | none =>
      by_cases hd : d = 0 <;> simp [respOf, respEncOffset, operandSigned, ha, need, check, hd] at h
    | some a =>
      rw [respOf, respEncOffset_some ha] at h
      split at h
      · cases h; exact ⟨_, rfl, .inr (.inr (.inl ⟨d, rfl, length_offsetBytes _ _, by tauto⟩))⟩
      · cases h
  | toBytes =>
    left
    obtain ⟨dest, src, cmd, payload, hfr, hf, rfl⟩ := respToBytes_eq_ok.mp h
    refine ⟨_, rfl, .inr (.inr (.inr ⟨rfl, by rw [length_wireForm]; exact hf, _, _, hfr.2.2.2.1, hfr.2.2.2.2.2.2.1, ?_⟩))⟩
    rw [length_wireForm, BitVec.toNat_ofNat]
    have := hfr.2.2.1; omega
  | decFreq =>
    obtain ⟨b, -, -, -, -, rfl⟩ := respDecFreq_eq_ok.mp h
    exact .inr (.inl ⟨_, rfl, .inl rfl⟩)
  | decLevel =>
    obtain ⟨b, -, -, -, -, -, rfl⟩ := respDecLevel_eq_ok.mp h
    exact .inr (.inl ⟨_, rfl, .inr (.inl rfl)⟩)
  | decOffset d =>
    obtain ⟨-, b, -, -, -, rfl⟩ := respDecOffset_eq_ok.mp h
    exact .inr (.inl ⟨_, rfl, .inr (.inr (.inl ⟨d, rfl⟩))⟩)
  | isAck =>
    obtain ⟨k, n, c0, -, -, -, -, -, rfl⟩ := respIsCommand_eq_ok.mp h
    exact .inr (.inl ⟨_, rfl, .inr (.inr (.inr ⟨.inl rfl, hbit _⟩))⟩)
  | isNak =>
    obtain ⟨k, n, c0, -, -, -, -, -, rfl⟩ := respIsCommand_eq_ok.mp h
    exact .inr (.inl ⟨_, rfl, .inr (.inr (.inr ⟨.inr (.inl rfl), hbit _⟩))⟩)
  | isEcho =>
    obtain ⟨k, n, src, dest, -, -, -, -, -, -, rfl⟩ := respIsEcho_eq_ok.mp h
    exact .inr (.inl ⟨_, rfl, .inr (.inr (.inr ⟨.inr (.inr rfl), hbit _⟩))⟩)
  | parse =>
    obtain ⟨b, hi, hmax, hmin, -, -, -, rfl⟩ := respParse_eq_ok.mp h
    refine .inr (.inr ⟨b, _, rfl, rfl, ?_, cmdLen_le hmin, hmax⟩)
    rcases cmdLen_cases c (b.getD 4 0) b.length with ⟨e, -⟩ | ⟨e, -⟩ <;> omega

/-- The bytes of PF_PAYLOAD a parsed frame fills. -/
theorem isSome_read_frame (b : List Byte) (k j : Nat) : ((Resp.frame b k).pfPayload.read j).isSome ↔
    j < ((b.drop (4 + k)).take (b.length - 5 - k)).length := by
  rw [← isSome_getElem?_iff]; simp only [Resp.frame, read_memWrite_nil]

/-- How many bytes PF_PAYLOAD holds. -/
theorem length_frame_payload (b : List Byte) (k : Nat) :
    ((b.drop (4 + k)).take (b.length - 5 - k)).length = b.length - 5 - k := by simp; omega

/-- Replacing RESP keeps everything else. -/
theorem sameButResp_resp (s : State) (x) : SameButResp s { s with resp := x } := by simp [SameButResp]

/-- An operation that answers leaves the record of its result, or the bare record of the error it raised, and nothing else
changes. -/
theorem exec_next_record {s t : State} {i : Instr} (h : exec i s = .next t) : SameButResp s t ∧ ∃ r, t.resp = some r ∧
    ((respOf s.cfg s.req i = .ok r) ∨ ∃ e, respOf s.cfg s.req i = .error (.raised e) ∧ r = Resp.only e.code) := by
  obtain ⟨r, hrec, rfl⟩ := exec_eq_next.mp h
  refine ⟨sameButResp_resp _ _, r, rfl, ?_⟩
  rcases hx : respOf s.cfg s.req i with (e | f) | r'
  · rw [hx] at hrec; cases hrec; exact .inr ⟨e, rfl, rfl⟩
  · rw [hx] at hrec; cases hrec
  · rw [hx] at hrec; cases hrec; exact .inl rfl

/-- No error has the code of success (60_exceptions R88). -/
theorem code_ne_ok (e : ErrorKind) : e.code ≠ 0x00 := by cases e <;> decide

/-- Reading a field raises no error. -/
theorem need_ne_raised {α : Type} {f : ReqField} {x : Option α} {e} : need f x ≠ .error (.raised e) := by
    cases x <;> simp [need]

/-- Reading a buffer raises no error. -/
theorem memRead_ne_raised {f m a n e} : memRead f m a n ≠ .error (.raised e) := fun h => by
  obtain ⟨j, _, _, h⟩ := memRead_error h; cases h

/-- An error of a sequence is an error of one of its parts. -/
theorem bind_raised {α β : Type} {x : Except Halt α} {k : α → Except Halt β} {e} (h : (x >>= k) = .error (.raised e)) :
    x = .error (.raised e) ∨ ∃ a, x = .ok a ∧ k a = .error (.raised e) := by
  cases x with
  | error g => left; simpa using h
  | ok a => right; exact ⟨a, rfl, by simpa using h⟩

/-- The error of a check. -/
theorem check_raised {c : Prop} [Decidable c] {e e'} (h : check c e = .error (.raised e')) : e' = e := by
  unfold check at h; split at h <;> simp_all

/-- The error of reading IB_LEN. -/
theorem operandLen_raised {c q e} (h : operandLen c q = .error (.raised e)) : e = .invalidParameter := by
  rw [operandLen_eq] at h; split at h
  · cases h
  · split at h <;> cases h; rfl

/-- The errors of reading the input of a decoder. -/
theorem operandBytes_raised {c q n e} (h : operandBytes c q n = .error (.raised e)) : e = .invalidParameter ∨
    e = .malformedData := by
  rcases bind_raised h with h | ⟨a, -, h⟩
  · exact .inl (operandLen_raised h)
  rcases bind_raised h with h | ⟨_, -, h⟩
  · exact .inr (check_raised h)
  · exact absurd h memRead_ne_raised

/-- The error of reading the frame operand. -/
theorem operandFrame_raised {c q e} (h : operandFrame c q = .error (.raised e)) : e = .invalidParameter := by
  rcases bind_raised h with h | ⟨a, -, h⟩
  · exact absurd h need_ne_raised
  rcases bind_raised h with h | ⟨_, -, h⟩
  · exact absurd h need_ne_raised
  rcases bind_raised h with h | ⟨_, -, h⟩
  · exact check_raised h
  · cases h

/-- Reading the command bytes raises no error. -/
theorem operandCmd_ne_raised {q n e} : operandCmd q n ≠ .error (.raised e) := by
  intro h
  rcases bind_raised h with h | ⟨a, -, h⟩
  · exact absurd h need_ne_raised
  split at h
  · rcases bind_raised h with h | ⟨_, -, h⟩
    · exact absurd h need_ne_raised
    · cases h
  · cases h

/-- Which operation raises which error (60_exceptions R88). -/
theorem respOf_raised_cases {c : Config} {q : Req} {i : Instr} {e} (h : respOf c q i = .error (.raised e)) :
  e = .invalidParameter ∨ (e = .malformedData ∧ (i = .decFreq ∨ i = .decLevel ∨ ∃ d, i = .decOffset d)) ∨
      (e = .malformedFrame ∧ i = .parse) := by
  cases i with
  | encFreq =>
    rcases bind_raised h with h | ⟨a, -, h⟩
    · rcases bind_raised h with h | ⟨a, -, h⟩
      · exact absurd h need_ne_raised
      · cases h
    rcases bind_raised h with h | ⟨_, -, h⟩
    · exact .inl (check_raised h)
    · cases h
  | encLevel =>
    rcases bind_raised h with h | ⟨a, -, h⟩
    · rcases bind_raised h with h | ⟨a, -, h⟩
      · exact absurd h need_ne_raised
      · cases h
    rcases bind_raised h with h | ⟨_, -, h⟩
    · exact .inl (check_raised h)
    · cases h
  | encOffset d =>
    rcases bind_raised h with h | ⟨_, -, h⟩
    · exact .inl (check_raised h)
    rcases bind_raised h with h | ⟨a, -, h⟩
    · rcases bind_raised h with h | ⟨a, -, h⟩
      · exact absurd h need_ne_raised
      · cases h
    rcases bind_raised h with h | ⟨_, -, h⟩
    · exact .inl (check_raised h)
    · cases h
  | decFreq =>
    rcases bind_raised h with h | ⟨a, -, h⟩
    · rcases operandBytes_raised h with rfl | rfl; exacts [.inl rfl, .inr (.inl ⟨rfl, .inl rfl⟩)]
    rcases bind_raised h with h | ⟨_, -, h⟩
    · exact .inr (.inl ⟨check_raised h, .inl rfl⟩)
    · cases h
  | decLevel =>
    rcases bind_raised h with h | ⟨a, -, h⟩
    · rcases operandBytes_raised h with rfl | rfl; exacts [.inl rfl, .inr (.inl ⟨rfl, .inr (.inl rfl)⟩)]
    rcases bind_raised h with h | ⟨_, -, h⟩
    · exact .inr (.inl ⟨check_raised h, .inr (.inl rfl)⟩)
    rcases bind_raised h with h | ⟨_, -, h⟩
    · exact .inr (.inl ⟨check_raised h, .inr (.inl rfl)⟩)
    · cases h
  | decOffset d =>
    have hd : (Instr.decOffset d = .decFreq ∨ Instr.decOffset d = .decLevel ∨ ∃ d', Instr.decOffset d = .decOffset d') :=
        .inr (.inr ⟨d, rfl⟩)
    rcases bind_raised h with h | ⟨_, -, h⟩
    · exact .inl (check_raised h)
    rcases bind_raised h with h | ⟨a, -, h⟩
    · rcases operandBytes_raised h with rfl | rfl; exacts [.inl rfl, .inr (.inl ⟨rfl, hd⟩)]
    iterate 5
      rcases bind_raised h with h | ⟨_, -, h⟩
      · exact .inr (.inl ⟨check_raised h, hd⟩)
    cases h
  | toBytes =>
    rcases bind_raised h with h | ⟨⟨k, n⟩, -, h⟩
    · exact .inl (operandFrame_raised h)
    rcases bind_raised h with h | ⟨_, -, h⟩
    · exact absurd h operandCmd_ne_raised
    rcases bind_raised h with h | ⟨_, -, h⟩
    · exact absurd h memRead_ne_raised
    iterate 2
      rcases bind_raised h with h | ⟨_, -, h⟩
      · exact absurd h need_ne_raised
    cases h
  | parse =>
    rcases bind_raised h with h | ⟨_, -, h⟩
    · exact .inl (operandLen_raised h)
    rcases bind_raised h with h | ⟨_, -, h⟩
    · exact .inr (.inr ⟨check_raised h, rfl⟩)
    rcases bind_raised h with h | ⟨_, -, h⟩
    · exact absurd h memRead_ne_raised
    iterate 2
      rcases bind_raised h with h | ⟨_, -, h⟩
      · exact .inr (.inr ⟨check_raised h, rfl⟩)
    cases h
  | isAck =>
    rcases bind_raised h with h | ⟨⟨k, n⟩, -, h⟩
    · exact .inl (operandFrame_raised h)
    rcases bind_raised h with h | ⟨_, -, h⟩
    · exact absurd h need_ne_raised
    · cases h
  | isNak =>
    rcases bind_raised h with h | ⟨⟨k, n⟩, -, h⟩
    · exact .inl (operandFrame_raised h)
    rcases bind_raised h with h | ⟨_, -, h⟩
    · exact absurd h need_ne_raised
    · cases h
  | isEcho =>
    rcases bind_raised h with h | ⟨⟨k, n⟩, -, h⟩
    · exact .inl (operandFrame_raised h)
    iterate 2
      rcases bind_raised h with h | ⟨_, -, h⟩
      · exact absurd h need_ne_raised
    cases h

/-- A completed operation has STATUS OK. -/
theorem respOf_ok_status {c : Config} {q : Req} {i : Instr} {r : Resp} (h : respOf c q i = .ok r) : r.status = 0x00 := by
  rcases respOf_ok_cases h with ⟨bs, rfl, hv⟩ | ⟨v, rfl, hv⟩ | ⟨b, k, rfl, -⟩ <;> rfl

/-- MemRead reads its run alone (20_memory R40). -/
theorem memRead_congr {f : Nat → ReqField} {m m' : Memory} {n addr : Nat}
    (h : ∀ j, j < n → m.read (addr + j) = m'.read (addr + j)) : memRead f m' addr n = memRead f m addr n := by
  induction n generalizing addr with
  | zero => rfl
  | succ n ih =>
    have h0 : m'.read addr = m.read addr := by simpa using (h 0 (by omega)).symm
    rw [memRead, memRead, h0, ih fun j hj => by have := h (j + 1) (by omega); rwa [Nat.add_assoc, Nat.add_comm 1]]

/-- An operation reads the fields of 30_encoding R57 alone. -/
theorem respOf_congr {i : Instr} {q q' : Req} (c : Config) (ha : q.AgreeOn q' i) : respOf c q' i = respOf c q i := by
  have hu : q.a = q'.a → operandUnsigned q' = operandUnsigned q := fun h => by rw [operandUnsigned, operandUnsigned, h]
  have hsn : q.a = q'.a → operandSigned q' = operandSigned q := fun h => by rw [operandSigned, operandSigned, h]
  have hl : q.ibLen = q'.ibLen → operandLen c q' = operandLen c q := fun h => by rw [operandLen, operandLen, h]
  have hb : (q.ibLen = q'.ibLen ∧ ∀ n, q.ibLen = some n → ∀ j, j < n → q.ib.read j = q'.ib.read j) → ∀ n,
      operandBytes c q' n = operandBytes c q n := by
    rintro ⟨h1, h2⟩ n
    rw [operandBytes, operandBytes, hl h1, operandLen_eq]
    cases hq : q.ibLen with
    | none => rfl
    | some m =>
      dsimp only
      split
      · rw [ok_bind, ok_bind]
        by_cases hmn : m = n
        · subst hmn
          rw [check_true rfl, ok_bind, ok_bind]
          exact memRead_congr (fun j hj => by simpa using h2 m hq j hj)
        · rw [check_false hmn]; rfl
      · rfl
  have hf : q.fClen = q'.fClen → q.fPlen = q'.fPlen → operandFrame c q' = operandFrame c q := fun h h' => by rw [operandFrame,
      operandFrame, h, h']
  cases i with
  | encFreq => simp only [respOf, respEncFreq, hu ha]
  | encLevel => simp only [respOf, respEncLevel, hu ha]
  | encOffset d => simp only [respOf, respEncOffset, hsn ha]
  | decFreq => simp only [respOf, respDecFreq, hb ha]
  | decLevel => simp only [respOf, respDecLevel, hb ha]
  | decOffset d => simp only [respOf, respDecOffset, hb ha]
  | isAck => simp only [respOf, respIsCommand, hf ha.1 ha.2.2, ha.2.1]
  | isNak => simp only [respOf, respIsCommand, hf ha.1 ha.2.2, ha.2.1]
  | isEcho => simp only [respOf, respIsEcho, hf ha.2.2.1 ha.2.2.2, ha.1, ha.2.1]
  | parse =>
    simp only [respOf, respParse, hl ha.1, operandLen_eq]
    cases hq : q.ibLen with
    | none => rfl
    | some m =>
      dsimp only
      split
      · rw [ok_bind, ok_bind, memRead_congr (m := q.ib) (m' := q'.ib) (fun j hj => by simpa using ha.2 m hq j hj)]
      · rfl
  | toBytes =>
    obtain ⟨hd, hs, hk, h0, h1, hn, hp⟩ := ha
    simp only [respOf, respToBytes, hf hk hn]
    cases hfr : operandFrame c q with
    | error e => rfl
    | ok kn =>
      obtain ⟨k, n⟩ := kn
      obtain ⟨kb, hkb, hnn, hkk, -, -⟩ := operandFrame_eq_ok.mp hfr
      rw [ok_bind, ok_bind]
      dsimp only
      have hcmd : operandCmd q' k = operandCmd q k := by
        rw [operandCmd, operandCmd, h0]
        by_cases h2 : k = 2
        · have : kb = 2 := by apply BitVec.eq_of_toNat_eq; rw [hkk, h2]; rfl
          rw [h1 (by rw [hkb, this])]
        · simp [h2]
      rw [hcmd, memRead_congr (m := q.fPayload) (fun j hj => by simpa using hp n hnn j hj), hd, hs]

/-- A fault of a sequence is a fault of one of its parts. -/
theorem bind_faulted {α β : Type} {x : Except Halt α} {k : α → Except Halt β} {f} (h : (x >>= k) = .error (.faulted f)) :
    x = .error (.faulted f) ∨ ∃ a, x = .ok a ∧ k a = .error (.faulted f) := by
  cases x with
  | error g => left; simpa using h
  | ok a => right; exact ⟨a, rfl, by simpa using h⟩

/-- A check never faults. -/
theorem check_ne_faulted {c : Prop} [Decidable c] {e f} : check c e ≠ .error (.faulted f) := by
  unfold check; split <;> simp

/-- The fault of reading a field: it holds no value. -/
theorem need_faulted {α : Type} {g : ReqField} {x : Option α} {f} (h : need g x = .error (.faulted f)) : x = none ∧
    f = .unwrittenReqField g := by
  cases x <;> simp_all [need]

/-- A fault of an operation names a field that holds no value, and the operation was to read it (10_state R33, 60_exceptions
R93). -/
theorem respOf_fault_cases {c : Config} {q : Req} {i : Instr} {f} (h : respOf c q i = .error (.faulted f)) : ∃ g,
    f = .unwrittenReqField g ∧ q.hasValue g = false ∧ ¬ q.Written c i := by
  have hmem : ∀ {F : Nat → ReqField} {m n}, memRead F m 0 n = .error (.faulted f) → ∃ j, j < n ∧ m.read j = none ∧
      f = .unwrittenReqField (F j) := by
    intro F m n h
    obtain ⟨j, h1, h2, h3⟩ := memRead_error h
    rw [Nat.zero_add] at h2 h3
    exact ⟨j, h1, h2, by simpa using h3⟩
  have hA : q.a = none → ∀ i, (i = .encFreq ∨ i = .encLevel ∨ ∃ d, i = .encOffset d) → f = .unwrittenReqField .a → ∃ g,
      f = .unwrittenReqField g ∧ q.hasValue g = false ∧ ¬ q.Written c i := by
    intro ha i hi hf
    refine ⟨.a, hf, by simp [Req.hasValue, Req.read, ha], ?_⟩
    rcases hi with rfl | rfl | ⟨d, rfl⟩ <;> simp [Req.Written, ha]
  have hlen : operandLen c q = .error (.faulted f) → q.ibLen = none ∧ f = .unwrittenReqField .ibLen := by
    intro h
    rcases bind_faulted h with h | ⟨a, -, h⟩
    · exact need_faulted h
    rcases bind_faulted h with h | ⟨a, -, h⟩
    · exact absurd h check_ne_faulted
    · cases h
  have hbytes : ∀ n, operandBytes c q n = .error (.faulted f) → (q.ibLen = none ∧ f = .unwrittenReqField .ibLen) ∨ ∃ j,
      q.ibLen = some n ∧ n ≤ c.maxFrameBytes ∧ j < n ∧ q.ib.read j = none ∧ f = .unwrittenReqField (.ib j) := by
    intro n h
    rcases bind_faulted h with h | ⟨a, ha, h⟩
    · exact .inl (hlen h)
    rcases bind_faulted h with h | ⟨u, hc, h⟩
    · exact absurd h check_ne_faulted
    · obtain ⟨j, h1, h2, h3⟩ := hmem h
      rw [check_eq_ok] at hc
      rw [operandLen_eq] at ha
      cases hq : q.ibLen with
      | none => simp [hq] at ha
      | some m =>
        simp only [hq] at ha
        split at ha <;> cases ha
        exact .inr ⟨j, by rw [hc], by omega, h1, h2, h3⟩
  have hI : ∀ n i, (i = .decFreq ∨ i = .decLevel ∨ (∃ d, i = .decOffset d) ∨ i = .parse) → ((q.ibLen = none ∧
      f = .unwrittenReqField .ibLen) ∨ ∃ j, q.ibLen = some n ∧ n ≤ c.maxFrameBytes ∧ j < n ∧ q.ib.read j = none ∧
      f = .unwrittenReqField (.ib j)) → ∃ g, f = .unwrittenReqField g ∧ q.hasValue g = false ∧ ¬ q.Written c i := by
    rintro n i hi (⟨h1, h2⟩ | ⟨j, h1, h2, h3, h4, h5⟩)
    · exact ⟨_, h2, by simp [Req.hasValue, Req.read, h1], by rcases hi with rfl | rfl | ⟨d, rfl⟩ | rfl <;> simp [Req.Written, h1]⟩
    · refine ⟨_, h5, by simp [Req.hasValue, Req.read, h4], fun hw => ?_⟩
      have : (q.ib.read j).isSome := by
        rcases hi with rfl | rfl | ⟨d, rfl⟩ | rfl <;> exact hw.2 n h1 j h3 (by omega)
      rw [h4] at this; cases this
  have hframe : operandFrame c q = .error (.faulted f) → (q.fClen = none ∧ f = .unwrittenReqField .fClen) ∨ (q.fPlen = none ∧
      f = .unwrittenReqField .fPlen) := by
    intro h
    rcases bind_faulted h with h | ⟨a, -, h⟩
    · exact .inl (need_faulted h)
    rcases bind_faulted h with h | ⟨a, -, h⟩
    · exact .inr (need_faulted h)
    rcases bind_faulted h with h | ⟨a, -, h⟩
    · exact absurd h check_ne_faulted
    · cases h
  have hF : ∀ i, (i = .toBytes ∨ i = .isAck ∨ i = .isNak ∨ i = .isEcho) → operandFrame c q = .error (.faulted f) → ∃ g,
      f = .unwrittenReqField g ∧ q.hasValue g = false ∧ ¬ q.Written c i := by
    intro i hi h
    rcases hframe h with ⟨h1, h2⟩ | ⟨h1, h2⟩ <;> exact ⟨_, h2, by simp [Req.hasValue, Req.read, h1],
        by rcases hi with rfl | rfl | rfl | rfl <;> simp [Req.Written, h1]⟩
  cases i with
  | encFreq =>
    rcases bind_faulted h with h | ⟨_, -, h⟩
    · rcases bind_faulted h with h | ⟨_, -, h⟩
      · exact hA (need_faulted h).1 _ (by simp) (need_faulted h).2
      · cases h
    rcases bind_faulted h with h | ⟨_, -, h⟩
    · exact absurd h check_ne_faulted
    · cases h
  | encLevel =>
    rcases bind_faulted h with h | ⟨_, -, h⟩
    · rcases bind_faulted h with h | ⟨_, -, h⟩
      · exact hA (need_faulted h).1 _ (by simp) (need_faulted h).2
      · cases h
    rcases bind_faulted h with h | ⟨_, -, h⟩
    · exact absurd h check_ne_faulted
    · cases h
  | encOffset d =>
    rcases bind_faulted h with h | ⟨_, -, h⟩
    · exact absurd h check_ne_faulted
    rcases bind_faulted h with h | ⟨_, -, h⟩
    · rcases bind_faulted h with h | ⟨_, -, h⟩
      · exact hA (need_faulted h).1 _ (by simp) (need_faulted h).2
      · cases h
    rcases bind_faulted h with h | ⟨_, -, h⟩
    · exact absurd h check_ne_faulted
    · cases h
  | decFreq =>
    rcases bind_faulted h with h | ⟨_, -, h⟩
    · exact hI 5 _ (by simp) (hbytes _ h)
    rcases bind_faulted h with h | ⟨_, -, h⟩
    · exact absurd h check_ne_faulted
    · cases h
  | decLevel =>
    rcases bind_faulted h with h | ⟨_, -, h⟩
    · exact hI 2 _ (by simp) (hbytes _ h)
    iterate 2
      rcases bind_faulted h with h | ⟨_, -, h⟩
      · exact absurd h check_ne_faulted
    cases h
  | decOffset d =>
    rcases bind_faulted h with h | ⟨_, -, h⟩
    · exact absurd h check_ne_faulted
    rcases bind_faulted h with h | ⟨_, -, h⟩
    · exact hI _ _ (by simp) (hbytes _ h)
    iterate 5
      rcases bind_faulted h with h | ⟨_, -, h⟩
      · exact absurd h check_ne_faulted
    cases h
  | parse =>
    rcases bind_faulted h with h | ⟨n, hn, h⟩
    · exact hI 0 _ (by simp) (.inl (hlen h))
    rcases bind_faulted h with h | ⟨_, -, h⟩
    · exact absurd h check_ne_faulted
    rcases bind_faulted h with h | ⟨_, -, h⟩
    · obtain ⟨j, h1, h2, h3⟩ := hmem h
      rw [operandLen_eq] at hn
      cases hq : q.ibLen with
      | none => simp [hq] at hn
      | some m =>
        simp only [hq] at hn
        split at hn <;> cases hn
        exact hI n _ (by simp) (.inr ⟨j, hq, by assumption, h1, h2, h3⟩)
    iterate 2
      rcases bind_faulted h with h | ⟨_, -, h⟩
      · exact absurd h check_ne_faulted
    cases h
  | toBytes =>
    rcases bind_faulted h with h | ⟨⟨k, n⟩, hkn, h⟩
    · exact hF _ (by simp) h
    obtain ⟨kb, hk, hn, hkk, h12, hfit⟩ := operandFrame_eq_ok.mp hkn
    rcases bind_faulted h with h | ⟨_, -, h⟩
    · rcases bind_faulted h with h | ⟨_, -, h⟩
      · exact ⟨_, (need_faulted h).2, by simp [Req.hasValue, Req.read, (need_faulted h).1], by simp [Req.Written, (need_faulted h).1]⟩
      · split at h
        · rename_i h2
          rcases bind_faulted h with h | ⟨_, -, h⟩
          · refine ⟨_, (need_faulted h).2, by simp [Req.hasValue, Req.read, (need_faulted h).1], fun hw => ?_⟩
            have := hw.2.2.2.2.1 (by rw [hk]; congr 1; apply BitVec.eq_of_toNat_eq; rw [hkk, h2]; rfl)
            rw [(need_faulted h).1] at this; cases this
          · cases h
        · cases h
    rcases bind_faulted h with h | ⟨_, -, h⟩
    · obtain ⟨j, h1, h2, h3⟩ := hmem h
      refine ⟨_, h3, by simp [Req.hasValue, Req.read, h2], fun hw => ?_⟩
      have := hw.2.2.2.2.2.2 n hn j h1 (by rw [payloadBytes]; omega)
      rw [h2] at this; cases this
    iterate 2
      rcases bind_faulted h with h | ⟨_, -, h⟩
      · exact ⟨_, (need_faulted h).2, by simp [Req.hasValue, Req.read, (need_faulted h).1], by simp [Req.Written, (need_faulted h).1]⟩
    cases h
  | isAck =>
    rcases bind_faulted h with h | ⟨_, -, h⟩
    · exact hF _ (by simp) h
    rcases bind_faulted h with h | ⟨_, -, h⟩
    · exact ⟨_, (need_faulted h).2, by simp [Req.hasValue, Req.read, (need_faulted h).1], by simp [Req.Written, (need_faulted h).1]⟩
    cases h
  | isNak =>
    rcases bind_faulted h with h | ⟨_, -, h⟩
    · exact hF _ (by simp) h
    rcases bind_faulted h with h | ⟨_, -, h⟩
    · exact ⟨_, (need_faulted h).2, by simp [Req.hasValue, Req.read, (need_faulted h).1], by simp [Req.Written, (need_faulted h).1]⟩
    cases h
  | isEcho =>
    rcases bind_faulted h with h | ⟨_, -, h⟩
    · exact hF _ (by simp) h
    iterate 2
      rcases bind_faulted h with h | ⟨_, -, h⟩
      · exact ⟨_, (need_faulted h).2, by simp [Req.hasValue, Req.read, (need_faulted h).1], by simp [Req.Written, (need_faulted h).1]⟩
    cases h

/-- When the end of a request faults. -/
theorem finish_fault {s x f} (h : finish s x = .fault f) : x = .error (.faulted f) := by
  rcases x with (e | f) | r <;> simp [finish] at h; rw [h]

/-- A fault of a transaction names a REQ field that holds no value (60_exceptions R93). -/
theorem transaction_fault {s f} (h : transaction s = .fault f) : ∃ g, f = .unwrittenReqField g ∧ s.req.hasValue g = false := by
  rcases transaction_cases s with ⟨h1, e⟩ | ⟨w, k, h1, h2, e⟩ | ⟨w, i, h1, h2, e⟩ <;> rw [e] at h
  · cases h; exact ⟨_, rfl, by simp [Req.hasValue, Req.read, h1]⟩
  · cases h
  · rw [exec_eq_finish] at h
    obtain ⟨g, h1, h2, -⟩ := respOf_fault_cases (finish_fault h)
    exact ⟨g, h1, h2⟩

end Sys2Proof.Machine
end

