-- ==== Sys2Proof/Laws/Step.lean ====
section
/-! SUPPORT. Everything a step can do (10_state R29–R31, R34; 70_reset R109). -/

namespace Sys2Proof.Machine

/-- A step is the first pending action. -/
theorem step_cons {s : State} {x rest} (h : s.host = x :: rest) : step s = runAction x { s with host := rest } := by
    simp [step, h]

/-- Everything a host write that goes on does. -/
theorem hostWrite_next {f v s t} (h : hostWrite f v s = .next t) : f.inBuffer s.cfg = true ∧
    t = { s with req := s.req.write s.cfg f v } := by
  unfold hostWrite at h; split at h
  · cases h; exact ⟨by assumption, rfl⟩
  · cases h

/-- Everything an answering edge that goes on does. -/
theorem answerSampled_next {q s t} (h : answerSampled q s = .next t) : ∃ r, t = { s with resp := some r, port := .answered } ∧
    transaction { s with req := q } = .next { s with req := q, resp := some r } := by
  unfold answerSampled at h
  split at h
  · rename_i u hu
    obtain ⟨r, rfl⟩ := transaction_next hu
    cases h; exact ⟨r, rfl, hu⟩
  · cases h
  · cases h

/-- Everything a clock edge that goes on can do. -/
theorem clockEdge_next {p : Pins} {s t : State} (h : clockEdge p s = .next t) :
    (p.rst = true ∧ t = resetBlock { s with edges := s.edges + 1 }) ∨
    (p.rst = false ∧ s.port = .ready ∧ p.reqValid = true ∧ t = { s with edges := s.edges + 1, port := .busy s.req 0 }) ∨
    (p.rst = false ∧ s.port = .ready ∧ p.reqValid = false ∧ t = { s with edges := s.edges + 1 }) ∨
    (∃ q age r, p.rst = false ∧ s.port = .busy q age ∧ p.answer = true ∧ s.cfg.responseLatency ≤ age + 1 ∧
      transaction { s with edges := s.edges + 1, req := q } = .next { s with edges := s.edges + 1, req := q, resp := some r } ∧
      t = { s with edges := s.edges + 1, resp := some r, port := .answered }) ∨
    (∃ q age, p.rst = false ∧ s.port = .busy q age ∧ ¬(p.answer = true ∧ s.cfg.responseLatency ≤ age + 1) ∧
      t = { s with edges := s.edges + 1, port := .busy q (age + 1) }) ∨
    (p.rst = false ∧ s.port = .answered ∧ p.rspReady = true ∧ t = { s with edges := s.edges + 1, port := .ready }) ∨
    (p.rst = false ∧ s.port = .answered ∧ p.rspReady = false ∧ t = { s with edges := s.edges + 1 }) := by
  simp only [clockEdge] at h
  cases hr : p.rst with
  | true => rw [hr] at h; simp at h; exact .inl ⟨rfl, h.symm⟩
  | false =>
    rw [hr] at h
    simp only [Bool.false_eq_true, if_false] at h
    cases hp : s.port with
    | ready =>
      simp only [hp] at h
      cases hv : p.reqValid <;> rw [hv] at h <;> simp at h
      · exact .inr (.inr (.inl ⟨rfl, rfl, rfl, by rw [← h, ← hp]⟩))
      · exact .inr (.inl ⟨rfl, rfl, rfl, h.symm⟩)
    | busy q age =>
      simp only [hp] at h
      split at h
      · rename_i hc
        obtain ⟨r, rfl, ht⟩ := answerSampled_next h
        exact .inr (.inr (.inr (.inl ⟨q, age, r, rfl, rfl, hc.1, hc.2, ht, rfl⟩)))
      · rename_i hc
        cases h
        exact .inr (.inr (.inr (.inr (.inl ⟨q, age, rfl, rfl, hc, rfl⟩))))
    | answered =>
      simp only [hp] at h
      cases hv : p.rspReady <;> rw [hv] at h <;> simp at h
      · exact .inr (.inr (.inr (.inr (.inr (.inr ⟨rfl, rfl, rfl, by rw [← h, ← hp]⟩)))))
      · exact .inr (.inr (.inr (.inr (.inr (.inl ⟨rfl, rfl, rfl, h.symm⟩)))))

/-- A port waits exactly where it holds a sampled request. -/
theorem waiting_iff {p : Port} : p.waiting = true ↔ ∃ q age, p = .busy q age := by
  cases p <;> simp [Port.waiting]

/-- With no action pending a step is what the block does meanwhile. -/
theorem step_nil {s : State} (hh : s.host = []) : step s = idle s := by
  simp [step, hh]

/-- With no action pending a waiting request sees a quiet clock edge. -/
theorem step_waiting {s : State} (hh : s.host = []) (hw : s.port.waiting = true) : step s = clockEdge quietPins s := by
  simp [step_nil hh, idle, hw]

/-- A waiting request before its latency has passed, with no action pending: an edge is counted. -/
theorem step_waiting_early {s : State} {q : Req} {age : Nat} (hh : s.host = []) (hp : s.port = .busy q age)
    (hl : age + 1 < s.cfg.responseLatency) : step s = .next { s with edges := s.edges + 1, port := .busy q (age + 1) } := by
  rw [step_waiting hh (waiting_iff.mpr ⟨q, age, hp⟩), clockEdge]
  simp [quietPins, hp, hl]

/-- A waiting request whose latency has passed, with no action pending: it is answered. -/
theorem step_waiting_answer {s : State} {q : Req} {age : Nat} (hh : s.host = []) (hp : s.port = .busy q age)
    (hl : s.cfg.responseLatency ≤ age + 1) : step s = answerSampled q { s with edges := s.edges + 1 } := by
  rw [step_waiting hh (waiting_iff.mpr ⟨q, age, hp⟩), clockEdge]
  simp [quietPins, hp, hl]

/-- Everything a step that goes on can do: idle, count an edge or answer with no action pending, or the first pending action. -/
theorem step_next {s t : State} (h : step s = .next t) :
    (s.host = [] ∧ ((s.port.waiting = false ∧ t = s) ∨ (s.port.waiting = true ∧ clockEdge quietPins s = .next t))) ∨
    ∃ x rest, s.host = x :: rest ∧
      ((∃ f v, x = .write f v ∧ f.inBuffer s.cfg = true ∧ t = { s with host := rest, req := s.req.write s.cfg f v }) ∨
       (x = .issue ∧ s.port.reqReady = true ∧ ∃ r, transaction { s with host := rest } = .next t ∧
          t = { s with host := rest, resp := some r }) ∨
       (∃ f v, x = .read f ∧ s.respValue f = some v ∧ t = { s with host := rest, seen := (f, v) :: s.seen }) ∨
       (∃ a b v, x = .copy a b ∧ s.respValue a = some v ∧ b.inBuffer s.cfg = true ∧
          t = { s with host := rest, req := s.req.write s.cfg b v }) ∨
       (x = .reset ∧ t = resetBlock { s with host := rest }) ∨
       (∃ p : Pins, x = .clock p ∧ clockEdge p { s with host := rest } = .next t)) := by
  cases hh : s.host with
  | nil =>
    left
    cases hw : s.port.waiting with
    | false => simp [step_nil hh, idle, hw] at h; exact ⟨rfl, .inl ⟨rfl, h.symm⟩⟩
    | true => rw [step_waiting hh hw] at h; exact ⟨rfl, .inr ⟨rfl, h⟩⟩
  | cons x rest =>
    right
    rw [step_cons hh] at h
    refine ⟨x, rest, rfl, ?_⟩
    cases x with
    | write f v =>
      obtain ⟨h1, h2⟩ := hostWrite_next h
      exact .inl ⟨f, v, rfl, h1, h2⟩
    | issue =>
      simp only [runAction, issueRequest] at h
      split at h
      · obtain ⟨r, rfl⟩ := transaction_next h
        exact .inr (.inl ⟨rfl, by assumption, r, h, rfl⟩)
      · cases h
    | read f =>
      simp only [runAction, hostRead] at h
      split at h
      · rename_i v hv; cases h; exact .inr (.inr (.inl ⟨f, v, rfl, hv, rfl⟩))
      · cases h
    | copy a b =>
      simp only [runAction, hostCopy] at h
      split at h
      · rename_i v hv
        obtain ⟨h1, h2⟩ := hostWrite_next h
        exact .inr (.inr (.inr (.inl ⟨a, b, v, rfl, hv, h1, h2⟩)))
      · cases h
    | reset => cases h; exact .inr (.inr (.inr (.inr (.inl ⟨rfl, rfl⟩))))
    | clock p => exact .inr (.inr (.inr (.inr (.inr ⟨p, rfl, h⟩))))

/-- When a host write is refused. -/
theorem hostWrite_refused {f v s r} (h : hostWrite f v s = .refused r) : f.inBuffer s.cfg = false ∧
    r = .noSuchBufferByte f := by
  unfold hostWrite at h; split at h
  · cases h
  · cases h; exact ⟨Bool.eq_false_iff.mpr ‹_›, rfl⟩

/-- A transaction never refuses. -/
theorem transaction_refused {s r} : transaction s ≠ .refused r := by
  intro h
  rcases transaction_cases s with ⟨h1, e⟩ | ⟨w, k, h1, h2, e⟩ | ⟨w, i, h1, h2, e⟩ <;> rw [e] at h
  · cases h
  · cases h
  · exact exec_ne_refused _ _ _ h

/-- A clock edge never refuses. -/
theorem clockEdge_refused {p : Pins} {s : State} {r : Refusal} : clockEdge p s ≠ .refused r := by
  intro h
  simp only [clockEdge] at h
  split at h
  · cases h
  · split at h
    · split at h <;> cases h
    · split at h
      · unfold answerSampled at h
        split at h
        · cases h
        · cases h
        · rename_i hr; exact transaction_refused hr
      · cases h
    · split at h <;> cases h

/-- A clock edge faults only where it answers, on a sampled field that holds no value (log 19). -/
theorem clockEdge_fault {p : Pins} {s : State} {f : Fault} (h : clockEdge p s = .fault f) :
    ∃ q age g, s.port = .busy q age ∧ f = .unwrittenReqField g ∧ q.hasValue g = false := by
  simp only [clockEdge] at h
  split at h
  · cases h
  · split at h
    · split at h <;> cases h
    · rename_i q age hp
      split at h
      · unfold answerSampled at h
        split at h
        · cases h
        · rename_i f' hf
          cases h
          obtain ⟨g, h1, h2⟩ := transaction_fault hf
          exact ⟨q, age, g, hp, h1, h2⟩
        · cases h
      · cases h
    · split at h <;> cases h

/-- A run whose first step goes on. -/
theorem run_next {n : Nat} {s s' : State} (h : step s = .next s') :
    Host.Core.run Sys2Proof.core (n + 1) s = Host.Core.run Sys2Proof.core n s' := by
  show Host.Core.run Sys2Proof.core (n + 1) (s : Sys2Proof.core.State) = _
  simp only [Host.Core.run]
  rw [show Sys2Proof.core.step s = .next s' from h]

/-- A run whose first step stops with a fault. -/
theorem run_fault {n : Nat} {s : State} {f : Fault} (h : step s = .fault f) :
    Host.Core.run Sys2Proof.core (n + 1) s = .fault f := by
  show Host.Core.run Sys2Proof.core (n + 1) (s : Sys2Proof.core.State) = _
  simp only [Host.Core.run]
  rw [show Sys2Proof.core.step s = .fault f from h]

/-- A run whose first step stops with a refusal. -/
theorem run_refused {n : Nat} {s : State} {r : Refusal} (h : step s = .refused r) :
    Host.Core.run Sys2Proof.core (n + 1) s = .refused r := by
  show Host.Core.run Sys2Proof.core (n + 1) (s : Sys2Proof.core.State) = _
  simp only [Host.Core.run]
  rw [show Sys2Proof.core.step s = .refused r from h]

/-- A transaction that answers depends on CFG and REQ alone (10_state R28). -/
theorem transaction_congr {s s' u : State} (hc : s'.cfg = s.cfg) (hq : s'.req = s.req) (h : transaction s = .next u) :
    transaction s' = .next { s' with resp := u.resp } := by
  rcases transaction_cases s with ⟨-, e⟩ | ⟨w, k, h1, h2, e⟩ | ⟨w, i, h1, h2, e⟩
  · simp [e] at h
  · rw [e] at h; cases h
    rw [transaction, hq, h1]; simp only [h2]; cases s'; simp only at hc hq; subst hc hq; rfl
  · rw [e, exec_eq_finish, finish_eq_next] at h
    obtain ⟨r, hr, rfl⟩ := h
    rw [transaction, hq, h1]; simp only [h2]
    rw [exec_eq_finish, finish_eq_next, hc, hq]; exact ⟨r, hr, by cases s'; simp only at hc hq; subst hc hq; rfl⟩

/-- A transaction that faults depends on CFG and REQ alone (10_state R28). -/
theorem transaction_fault_congr {s s' : State} {f : Fault} (hc : s'.cfg = s.cfg) (hq : s'.req = s.req)
    (h : transaction s = .fault f) : transaction s' = .fault f := by
  cases h' : transaction s' with
  | next u => rw [transaction_congr hc.symm hq.symm h'] at h; cases h
  | refused r => exact absurd h' transaction_refused
  | fault g =>
    rcases transaction_cases s with ⟨h1, e⟩ | ⟨w, k, -, -, e⟩ | ⟨w, i, h1, h2, e⟩
    · rw [e] at h; cases h
      rw [transaction, hq, h1] at h'; cases h'; rfl
    · rw [e] at h; cases h
    · rw [e, exec_eq_finish] at h
      rw [transaction, hq, h1] at h'
      simp only [h2] at h'
      rw [exec_eq_finish, hc, hq] at h'
      have e1 := finish_fault h
      have e2 := finish_fault h'
      rw [e1] at e2; cases e2; rfl

/-- The answer to a sampled request is what the atomic transaction on it gives, in whatever state it comes (10_state R28, R29). -/
theorem answerSampled_of_transaction {s s' u : State} {q : Req} (hc : s'.cfg = s.cfg)
    (h : transaction { s with req := q } = .next u) :
    answerSampled q s' = .next { s' with resp := u.resp, port := .answered } := by
  rw [answerSampled, transaction_congr (s := { s with req := q }) (s' := { s' with req := q }) hc rfl h]

/-- The fault of a sampled request is the atomic transaction's, in whatever state it comes. -/
theorem answerSampled_of_fault {s s' : State} {q : Req} {f : Fault} (hc : s'.cfg = s.cfg)
    (h : transaction { s with req := q } = .fault f) : answerSampled q s' = .fault f := by
  rw [answerSampled, transaction_fault_congr (s := { s with req := q }) (s' := { s' with req := q }) hc rfl h]

end Sys2Proof.Machine
end

