-- ==== Sys2Proof/Laws/Invariant.lean ====
section
/-! SUPPORT. Every operation on REQ and RESP keeps the forms the invariant asks for (10_state R19–R21, R27). -/

namespace Sys2Proof.Machine

/-- The record of an error is one 10_state R21 allows. -/
theorem respWf_only (c : Config) (e : ErrorKind) : (Resp.only e.code).Wf c := by
  constructor <;> first | (intros; simp_all; done) | skip
  · cases e <;> decide
  · intro h; exact absurd h (code_ne_ok e)

/-- The record of a completed operation is one 10_state R20 and R21 allow. -/
theorem respWf_of_ok {c : Config} {q : Req} {i : Instr} {r : Resp} (hc : c.Wf) (hi : i.wf = true) (h : respOf c q i = .ok r) :
    r.Wf c := by
  obtain ⟨-, -, h32, -⟩ := hc
  rcases respOf_ok_cases h with ⟨bs, rfl, hb⟩ | ⟨v, rfl, -⟩ | ⟨b, k, rfl, -, hk, hl, hm⟩
  · have hlen : bs.length ≤ c.maxFrameBytes := by
      rcases hb with ⟨-, h⟩ | ⟨-, h⟩ | ⟨d, rfl, h, -⟩ | ⟨-, h, -⟩
      · omega
      · omega
      · simp [Instr.wf] at hi; omega
      · exact h
    constructor
    · simp [Resp.bytes, statusOk]
    · intro h; exact absurd rfl h
    · simp [Resp.bytes, memWrite_nil_keys]
    · intro n hn; cases hn; exact hlen
    · rfl
    · intro n hn; cases hn
    · intro n hn; cases hn
    · simp [Resp.bytes]
    · simp [Resp.bytes]
    · intro _; right; left; exact ⟨rfl, rfl, rfl⟩
  · constructor
    · simp [Resp.number, statusOk]
    · intro h; exact absurd rfl h
    · rfl
    · intro n hn; cases hn
    · rfl
    · intro n hn; cases hn
    · intro n hn; cases hn
    · simp [Resp.number]
    · simp [Resp.number]
    · intro _; left; exact ⟨rfl, rfl, rfl⟩
  · constructor
    · simp [Resp.frame, statusOk]
    · intro h; exact absurd rfl h
    · rfl
    · intro n hn; cases hn
    · show ((memWrite [] 0 _).map Prod.fst) = List.range (b.length - 5 - k)
      rw [memWrite_nil_keys, length_frame_payload]
    · intro n hn; cases hn; rw [payloadBytes]; omega
    · intro n hn; cases hn; rcases hk with rfl | rfl; exacts [.inl rfl, .inr rfl]
    · rcases hk with rfl | rfl <;> simp [Resp.frame]
    · exact ⟨rfl, rfl, rfl, rfl⟩
    · intro _; right; right; exact ⟨rfl, rfl, rfl⟩

/-- What the decoder gives is well formed. -/
theorem wf_of_decode {w : CmdWord} {i : Instr} (h : decode w = .ok i) : i.wf = true := by
  obtain ⟨-, h, -⟩ := decode_eq_ok.mp h
  have hd : digField w < 16 := Nat.mod_lt _ (by decide)
  unfold opTable at h
  split at h <;> cases h <;> simp [Instr.wf, hd]

/-- A transaction leaves a record 10_state R20 and R21 allow. -/
theorem transaction_respWf {s t : State} {r : Resp} (hc : s.cfg.Wf) (h : transaction s = .next t) (hr : t.resp = some r) :
    r.Wf s.cfg := by
  rcases transaction_cases s with ⟨-, e⟩ | ⟨w, k, -, -, e⟩ | ⟨w, i, -, hd, e⟩
  · simp [e] at h
  · rw [e] at h; cases h; cases hr; exact respWf_only _ _
  · rw [e] at h
    obtain ⟨-, r', hr', hx⟩ := exec_next_record h
    rw [hr] at hr'; cases hr'
    rcases hx with hx | ⟨e, -, rfl⟩
    · refine respWf_of_ok hc ?_ hx
      exact wf_of_decode hd
    · exact respWf_only _ _

/-- A stored length fits its field. -/
theorem storeLen_lt (c : Config) (v : Int) : storeLen c v < 2 ^ lenBits c := by
  rw [storeLen]
  have h : (0 : Int) < 2 ^ lenBits c := by positivity
  have := Int.emod_lt_of_pos v h
  have := Int.emod_nonneg v (by omega : (2 : Int) ^ lenBits c ≠ 0)
  zify; omega

/-- A host write inside its buffer keeps REQ well formed. -/
theorem reqWf_write {c : Config} {q : Req} {f : ReqField} (v : Int) (hq : q.Wf c) (hf : f.inBuffer c = true) :
    (q.write c f v).Wf c := by
  obtain ⟨h1, h2, h3, h4, h5, h6⟩ := hq
  cases f with
  | ib i =>
    simp [ReqField.inBuffer] at hf
    refine ⟨wf_write h1 _ _, fun x hx => ?_, h3, h4, h5, h6⟩
    rcases mem_write_key hx with h | h
    · omega
    · exact h2 x h
  | fPayload i =>
    simp [ReqField.inBuffer] at hf
    refine ⟨h1, h2, wf_write h3 _ _, fun x hx => ?_, h5, h6⟩
    rcases mem_write_key hx with h | h
    · omega
    · exact h4 x h
  | ibLen => exact ⟨h1, h2, h3, h4, fun n hn => by cases hn; exact storeLen_lt _ _, h6⟩
  | fPlen => exact ⟨h1, h2, h3, h4, h5, fun n hn => by cases hn; exact storeLen_lt _ _⟩
  | _ => exact ⟨h1, h2, h3, h4, h5, h6⟩

/-- REQ after reset is well formed. -/
theorem reqWf_unwritten (c : Config) : Req.unwritten.Wf c := by
  constructor <;> simp [Req.unwritten]

/-- The memories of the reset state are canonical. -/
theorem reset_memories_wf : Memory.wf State.reset.req.ib ∧ Memory.wf State.reset.req.fPayload :=
  ⟨(reqWf_unwritten Config.example).ibSorted, (reqWf_unwritten Config.example).payloadSorted⟩

end Sys2Proof.Machine
end

