-- ==== Sys2Proof/Laws/PerInstr.lean ====
section
/-! SUPPORT. The families of statements made instruction by instruction (LAWS.json). -/

namespace Sys2Proof.Laws.EncodedFields

open Sys2Proof

/-- The encoding of a well-formed instruction holds its operation code in OP, its digit count in DIG, and zero in RSV
(30_encoding R51, R52). -/
def Statement (i : Instr) : Prop :=
  i.wf = true → opField (encode i) = i.opCode ∧ digField (encode i) = i.digits ∧ rsvField (encode i) = 0

theorem encFreq : Statement .encFreq := fun _ => by decide

theorem decFreq : Statement .decFreq := fun _ => by decide

theorem encLevel : Statement .encLevel := fun _ => by decide

theorem decLevel : Statement .decLevel := fun _ => by decide

theorem encOffset (dig : Nat) : Statement (.encOffset dig) := fun h => by
  have hd : dig < 16 := of_decide_eq_true h
  simp only [opField, digField, rsvField, encode, BitVec.toNat_ofNat, Instr.opCode, Instr.digits]
  omega

theorem decOffset (dig : Nat) : Statement (.decOffset dig) := fun h => by
  have hd : dig < 16 := of_decide_eq_true h
  simp only [opField, digField, rsvField, encode, BitVec.toNat_ofNat, Instr.opCode, Instr.digits]
  omega

theorem toBytes : Statement .toBytes := fun _ => by decide

theorem parse : Statement .parse := fun _ => by decide

theorem isAck : Statement .isAck := fun _ => by decide

theorem isNak : Statement .isNak := fun _ => by decide

theorem isEcho : Statement .isEcho := fun _ => by decide

end Sys2Proof.Laws.EncodedFields
end

