-- ==== Sys2Proof/Tests/Slice0.lean ====
section
/-! SUPPORT. The model's own tests, on values taken from the spec, and for each statement states that meet its hypotheses. -/

namespace Sys2Proof.Tests

open Sys2Proof Sys2Proof.Machine

/-! ## Small states and what a step answers -/

/-- The host has written a line's operands under the configuration TC of 95_test_vectors and issues the request next. -/
def issuing (l : AsmLine) : State :=
  { State.reset with req := l.fill Config.example Req.unwritten, host := [.issue] }

/-- What one step leaves in RESP, where it goes on. -/
def answer (s : State) : Option Resp :=
  match step s with
  | .next t => t.resp
  | .fault _ => none
  | .refused _ => none

/-- Whether an outcome is a next state. -/
def isNext : Host.Outcome State Fault Refusal → Bool
  | .next _ => true
  | .fault _ => false
  | .refused _ => false

/-- The record of a number, written out. -/
def numberRecord (v : Word64) : Resp := { Resp.only 0x00 with r := some v }

/-- The record of bytes, written out. -/
def bytesRecord (bs : List Byte) : Resp :=
  { Resp.only 0x00 with obLen := some bs.length, ob := bs.zipIdx.map Prod.swap }

/-- The record of a frame, written out. -/
def frameRecord (dest src : Byte) (cmd payload : List Byte) : Resp :=
  { Resp.only 0x00 with
    pfDest := some dest, pfSrc := some src, pfClen := some (BitVec.ofNat 2 cmd.length), pfCmd0 := cmd[0]?, pfCmd1 := cmd[1]?
    pfPlen := some payload.length, pfPayload := payload.zipIdx.map Prod.swap }

/-! ## Well-formedness: each check refuses an ill-formed term -/

theorem test_wf_refuses_encOffset_16 : (Instr.encOffset 16).wf = false := by decide
theorem test_wf_refuses_decOffset_16 : (Instr.decOffset 16).wf = false := by decide
theorem test_wf_takes_the_digit_bounds : (Instr.encOffset 0).wf = true ∧ (Instr.decOffset 15).wf = true := by decide

/-! ## Decoding: words written out bit by bit, RSV DIG OP (30_encoding R51, R52) -/

theorem test_decode_encFreq : (decode 0b00000000_0000_0001).toOption = some .encFreq := by decide
theorem test_decode_decFreq : (decode 0b00000000_0000_0010).toOption = some .decFreq := by decide
theorem test_decode_encLevel : (decode 0b00000000_0000_0011).toOption = some .encLevel := by decide
theorem test_decode_decLevel : (decode 0b00000000_0000_0100).toOption = some .decLevel := by decide
theorem test_decode_encOffset : (decode 0b00000000_1111_0101).toOption = some (.encOffset 15) := by decide
theorem test_decode_decOffset : (decode 0b00000000_0100_0110).toOption = some (.decOffset 4) := by decide
theorem test_decode_toBytes : (decode 0b00000000_0000_0111).toOption = some .toBytes := by decide
theorem test_decode_parse : (decode 0b00000000_0000_1000).toOption = some .parse := by decide
theorem test_decode_isAck : (decode 0b00000000_0000_1001).toOption = some .isAck := by decide
theorem test_decode_isNak : (decode 0b00000000_0000_1010).toOption = some .isNak := by decide
theorem test_decode_isEcho : (decode 0b00000000_0000_1011).toOption = some .isEcho := by decide

/-- 95_test_vectors V-C1 to V-C8 and V-X6: words that select no operation. -/
theorem test_decode_rejects :
    [0x0000, 0x000C, 0x000F, 0x0101, 0x8001, 0xFF01, 0x0011, 0x0071, 0x00FC].map (fun w => (decode w).toOption) =
      List.replicate 9 none := by decide

/-- Every row of the opcode table, placed by `withFetchWord`, runs as the first instruction after reset. -/
theorem test_placed_words_run :
    ∀ w ∈ [1, 2, 3, 4, 5, 0x45, 6, 0x46, 7, 8, 9, 0xA, 0xB], isNext (step (State.reset.withFetchWord 16 w)) = true := by decide

/-! ## One request each (95_test_vectors, section 2) -/

theorem test_encFreq_VF3 : answer (issuing (.encFreq 146520000)) = some (bytesRecord [0x00, 0x00, 0x52, 0x46, 0x01]) := by decide
theorem test_encFreq_VF7 : answer (issuing (.encFreq (-1))) = some (Resp.only 0x03) := by decide
theorem test_decFreq_VF8 :
    answer (issuing (.decFreq [0x90, 0x78, 0x56, 0x34, 0x12])) = some (numberRecord 0x00000000499602D2) := by decide
theorem test_decFreq_VF13 : answer (issuing (.decFreq [0xA0, 0, 0, 0, 0])) = some (Resp.only 0x01) := by decide
theorem test_encLevel_VL4 : answer (issuing (.encLevel 255)) = some (bytesRecord [0x55, 0x02]) := by decide
theorem test_encLevel_VL5 : answer (issuing (.encLevel 256)) = some (Resp.only 0x03) := by decide
theorem test_decLevel_VL7 : answer (issuing (.decLevel [0x99, 0x01])) = some (numberRecord 199) := by decide
theorem test_decLevel_VL8 : answer (issuing (.decLevel [0x56, 0x02])) = some (Resp.only 0x01) := by decide
theorem test_encOffset_VO10 : answer (issuing (.encOffset 5 (-12345))) = some (bytesRecord [0x45, 0x23, 0x81]) := by decide
theorem test_encOffset_VO8 : answer (issuing (.encOffset 2 (-99))) = some (bytesRecord [0x99, 0x80]) := by decide
theorem test_decOffset_VO26 :
    answer (issuing (.decOffset 5 [0x45, 0x23, 0x81])) = some (numberRecord 0xFFFFFFFFFFFFCFC7) := by decide
theorem test_decOffset_VO21 : answer (issuing (.decOffset 4 [0x00, 0x00, 0x80])) = some (Resp.only 0x01) := by decide
theorem test_toBytes_VT3 :
    answer (issuing (.toBytes ⟨0x94, 0xE0, 0x14, some 0x01, [0x50, 0x02, 0x80]⟩)) =
      some (bytesRecord [0xFE, 0xFE, 0x94, 0xE0, 0x14, 0x01, 0x50, 0x02, 0x80, 0xFD]) := by decide
theorem test_toBytes_VT6 :
    answer (issuing (.toBytes ⟨0x94, 0xE0, 0x05, none, [0xFD]⟩)) =
      some (bytesRecord [0xFE, 0xFE, 0x94, 0xE0, 0x05, 0xFD, 0xFD]) := by decide
theorem test_parse_VP5 :
    answer (issuing (.parse [0xFE, 0xFE, 0xE0, 0x94, 0x14, 0x0A, 0x01, 0xFD])) =
      some (frameRecord 0xE0 0x94 [0x14, 0x0A] [0x01]) := by decide
theorem test_parse_VP12 :
    answer (issuing (.parse [0xFE, 0xFE, 0xE0, 0x94, 0x03, 0xFD, 0x00, 0xFD])) =
      some (frameRecord 0xE0 0x94 [0x03] [0xFD, 0x00]) := by decide
theorem test_isAck_VA3 : answer (issuing (.isAck ⟨0xE0, 0x94, 0xFB, none, [0x01]⟩)) = some (numberRecord 1) := by decide
theorem test_isAck_VA4 : answer (issuing (.isAck ⟨0xE0, 0x94, 0xFB, some 0x00, []⟩)) = some (numberRecord 0) := by decide
theorem test_isNak_VA5 : answer (issuing (.isNak ⟨0xE0, 0x94, 0xFA, none, []⟩)) = some (numberRecord 1) := by decide
theorem test_isNak_VA6 : answer (issuing (.isNak ⟨0xE0, 0x94, 0xFB, none, []⟩)) = some (numberRecord 0) := by decide
theorem test_isEcho_VE1 :
    answer (issuing (.isEcho ⟨0x94, 0xE0, 0x05, none, [0x00, 0x00, 0x23, 0x14, 0x00]⟩)) = some (numberRecord 1) := by decide
theorem test_isEcho_VE3 : answer (issuing (.isEcho ⟨0xE0, 0xE0, 0xFB, none, []⟩)) = some (numberRecord 0) := by decide

/-! ## The decode's error, the host and the assembler -/

/-- 95_test_vectors V-X2: the command word is judged before the input's length (60_exceptions R90). -/
theorem test_word_error_comes_first :
    answer { issuing (.decFreq [0x00]) with req := { (AsmLine.decFreq [0x00]).fill Config.example Req.unwritten with cmd := some 0x0012 } } =
      some (Resp.only 0x04) := by decide

/-- 00_scope R9: a write of 257 to an 8-bit field stores 1. -/
theorem test_write_modulo : (Req.unwritten.write Config.example .fDest 257).fDest = some 1 := by decide

/-- 30_encoding R63, R64: a line with the source's function name. -/
theorem test_assemble_alias :
    assemble "decodeFrequency ib=[90 78 56 34 12]".toList = some (.decFreq [0x90, 0x78, 0x56, 0x34, 0x12]) := by decide

/-- 30_encoding R63: a line with a frame operand (95_test_vectors V-T3). -/
theorem test_assemble_frame :
    assemble ("TOBYTES f=".toList ++ openBrace :: "dest=94, src=E0, cmd=[14 01], payload=[50 02 80]".toList ++ [closeBrace]) =
      some (.toBytes ⟨0x94, 0xE0, 0x14, some 0x01, [0x50, 0x02, 0x80]⟩) := by decide

/-- 70_reset R109 (log 9): with no action pending a waiting request is answered, here after one edge. -/
theorem test_waiting_request_is_answered :
    answer { issuing (.encLevel 255) with host := [], port := .busy (issuing (.encLevel 255)).req 0 } =
      some (bytesRecord [0x55, 0x02]) := by decide

/-- 70_reset R107: PARSE's PF_CMD0 copied into F_CMD0. -/
theorem test_copy_frame_field :
    (match step { State.reset with
        resp := some (frameRecord 0xE0 0x94 [0xFB] []), host := [.copy .pfCmd0 .fCmd0] } with
      | .next t => t.req.fCmd0
      | .fault _ => none
      | .refused _ => none) = some 0xFB := by decide

/-! ## For each statement with hypotheses, values that meet them: one for each clause, at the bounds of its range -/

/-- A line's operands under TC, with no action pending. -/
def holding (l : AsmLine) : State := { issuing l with host := [] }

/-- The state with one record in RESP. -/
def answered (s : State) (r : Resp) : State := { s with resp := some r }

/-- A line's request accepted at the port and not yet answered, with no action pending. -/
def waitingFor (l : AsmLine) : State := { holding l with port := .busy (holding l).req 0 }

/-- A clock edge on which the pins ask for everything. -/
def allPins : Pins := ⟨false, true, true, true⟩

theorem witness_ResetLeavesNoValue :
    Instr.encOffset 1 ≠ .encOffset 0 ∧ Instr.encOffset 1 ≠ .decOffset 0 := by decide

theorem witness_ResetAbandonsRequest_host :
    ({ holding (.encFreq 1) with port := .busy Req.unwritten 0, host := [.reset] } : State).host = .reset :: [] := rfl

theorem witness_ResetAbandonsRequest_pin :
    ({ allPins with rst := true } : Pins).rst = true ∧
      ({ holding (.encFreq 1) with port := .busy Req.unwritten 0, host := [.clock { allPins with rst := true }] } : State).host =
        .clock { allPins with rst := true } :: [] := ⟨rfl, rfl⟩

theorem witness_StepKeepsInvariant :
    ∃ s t : State, s.Inv ∧ step s = .next t ∧ s.host ≠ [] := by
  refine ⟨{ State.reset with host := [.write .ibLen 64] }, _, ⟨by decide, reqWf_unwritten _, ?_, trivial⟩, rfl, by decide⟩
  intro r h
  cases h

theorem witness_DecodeOfEncodeIsInstr : (Instr.encOffset 15).wf = true ∧ (Instr.decOffset 0).wf = true := by decide

theorem witness_EncodeOfDecodeIsWord : decode 0x00F6 = .ok (.decOffset 15) := rfl

/-- Each kind of unassigned word, and the least and the greatest assigned one. -/
theorem witness_UnassignedWordRaisesIllegalOperation :
    (∀ w ∈ [0x0101, 0xFF01, 0x0000, 0x000C, 0x000F, 0x0011, 0x00FB, 0x0001, 0x00F6],
      (State.reset.withFetchWord 16 w).host = .issue :: [] ∧ (State.reset.withFetchWord 16 w).port.reqReady = true ∧
        (State.reset.withFetchWord 16 w).req.cmd = some (BitVec.ofNat 16 w)) ∧
    (0x0101 / 256 ≠ 0 ∧ 0x0000 % 16 = 0 ∧ 0xC ≤ 0x000C % 16 ∧ (0x0011 % 16 ≠ 5 ∧ 0x0011 % 16 ≠ 6 ∧ 0x0011 / 16 % 16 ≠ 0)) ∧
    ¬(0x00F6 / 256 ≠ 0 ∨ 0x00F6 % 16 = 0x0 ∨ 0xC ≤ 0x00F6 % 16 ∨
      (0x00F6 % 16 ≠ 0x5 ∧ 0x00F6 % 16 ≠ 0x6 ∧ 0x00F6 / 16 % 16 ≠ 0)) := by decide

theorem witness_StepRunsDecodedInstruction :
    (issuing (.isEcho ⟨0x94, 0xE0, 0x05, none, []⟩)).host = .issue :: [] ∧
      (issuing (.isEcho ⟨0x94, 0xE0, 0x05, none, []⟩)).port.reqReady = true ∧
      (issuing (.isEcho ⟨0x94, 0xE0, 0x05, none, []⟩)).req.cmd = some 0x000B ∧ decode 0x000B = .ok .isEcho :=
  ⟨rfl, rfl, by decide, rfl⟩

theorem witness_PlacedWordRunsNext : decodeTableWord 16 0x00F5 = some (.encOffset 15) := by decide

theorem witness_IdleKeepsState : (holding (.encFreq 1)).host = [] ∧ (holding (.encFreq 1)).port.waiting = false := ⟨rfl, rfl⟩

theorem witness_EncFreqAnswers :
    ((holding (.encFreq 9999999999)).req.a = some 0x2540BE3FF ∧ (0x2540BE3FF : Word64).toNat ≤ 9999999999) ∧
      ((holding (.encFreq 10000000000)).req.a = some 0x2540BE400 ∧ 9999999999 < (0x2540BE400 : Word64).toNat) := by decide

/-- Lengths beyond the buffer (65 with TC), wrong at the buffer's bound, and right with an illegal and a legal digit. -/
theorem witness_DecFreqAnswers :
    ((Req.unwritten.write Config.example .ibLen 65).ibLen = some 65 ∧ Config.example.maxFrameBytes < 65) ∧
    (64 ≤ Config.example.maxFrameBytes ∧ 64 ≠ 5) ∧
    (([0x9A, 0x99, 0x99, 0x99, 0x99] : List Byte).length = 5 ∧
      (holding (.decFreq [0x9A, 0x99, 0x99, 0x99, 0x99])).req.HoldsInput [0x9A, 0x99, 0x99, 0x99, 0x99] ∧
      ∃ x ∈ ([0x9A, 0x99, 0x99, 0x99, 0x99] : List Byte), ¬LegalPair x) ∧
    ((holding (.decFreq [0x99, 0x99, 0x99, 0x99, 0x99])).req.HoldsInput [0x99, 0x99, 0x99, 0x99, 0x99] ∧
      ∀ x ∈ ([0x99, 0x99, 0x99, 0x99, 0x99] : List Byte), LegalPair x) := by
  unfold Req.HoldsInput LegalPair; decide

theorem witness_EncLevelAnswers :
    ((holding (.encLevel 255)).req.a = some 255 ∧ (255 : Word64).toNat ≤ 255) ∧
      ((holding (.encLevel 256)).req.a = some 256 ∧ 255 < (256 : Word64).toNat) := by decide

/-- 256 is refused with legal digits, 255 is accepted; an illegal digit in either byte. -/
theorem witness_DecLevelAnswers :
    ((Req.unwritten.write Config.example .ibLen 65).ibLen = some 65 ∧ Config.example.maxFrameBytes < 65) ∧
    (64 ≤ Config.example.maxFrameBytes ∧ 64 ≠ 2) ∧
    ((holding (.decLevel [0x56, 0x02])).req.HoldsInput [0x56, 0x02] ∧
      255 < 1000 * ((0x02 : Byte).toNat / 16) + 100 * ((0x02 : Byte).toNat % 16) + 10 * ((0x56 : Byte).toNat / 16) +
        (0x56 : Byte).toNat % 16) ∧
    ((holding (.decLevel [0x0A, 0x02])).req.HoldsInput [0x0A, 0x02] ∧ ¬LegalPair 0x0A) ∧
    ((holding (.decLevel [0x00, 0xA0])).req.HoldsInput [0x00, 0xA0] ∧ ¬LegalPair 0xA0) ∧
    ((holding (.decLevel [0x55, 0x02])).req.HoldsInput [0x55, 0x02] ∧ LegalPair 0x55 ∧ LegalPair 0x02 ∧
      1000 * ((0x02 : Byte).toNat / 16) + 100 * ((0x02 : Byte).toNat % 16) + 10 * ((0x55 : Byte).toNat / 16) +
        (0x55 : Byte).toNat % 16 ≤ 255) := by
  unfold Req.HoldsInput LegalPair; decide

/-- The digit counts 1 and 15 at both ends of their ranges, and one beyond. -/
theorem witness_EncOffsetAnswers :
    (15 < 16 ∧ 15 ≠ 0) ∧
    ((holding (.encOffset 1 (-9))).req.a = some 0xFFFFFFFFFFFFFFF7 ∧
      (0xFFFFFFFFFFFFFFF7 : Word64).toInt.natAbs ≤ 10 ^ 1 - 1) ∧
    ((holding (.encOffset 1 10)).req.a = some 10 ∧ 10 ^ 1 - 1 < (10 : Word64).toInt.natAbs) ∧
    ((holding (.encOffset 15 999999999999999)).req.a = some 999999999999999 ∧
      (999999999999999 : Word64).toInt.natAbs ≤ 10 ^ 15 - 1) ∧
    ((holding (.encOffset 15 (-1000000000000000))).req.a = some 0xFFFC72815B398000 ∧
      10 ^ 15 - 1 < (0xFFFC72815B398000 : Word64).toInt.natAbs) := by decide

theorem witness_DecOffsetAnswers_length :
    ((Req.unwritten.write Config.example .ibLen 65).ibLen = some 65 ∧ Config.example.maxFrameBytes < 65 ∧ 15 < 16 ∧ 15 ≠ 0) ∧
      (64 ≤ Config.example.maxFrameBytes ∧ 64 ≠ 15 / 2 + 1) := by decide

/-- Each reason to reject: a digit pair, bits 6:4, an odd count's digit, an even count's nibble, negative zero. -/
theorem witness_DecOffsetAnswers_rejected :
    ((holding (.decOffset 4 [0x3A, 0x12, 0x00])).req.HoldsInput [0x3A, 0x12, 0x00] ∧ OffsetRejected [0x3A, 0x12, 0x00] 4) ∧
    ((holding (.decOffset 4 [0x00, 0x00, 0x10])).req.HoldsInput [0x00, 0x00, 0x10] ∧ OffsetRejected [0x00, 0x00, 0x10] 4) ∧
    ((holding (.decOffset 5 [0x45, 0x23, 0x8A])).req.HoldsInput [0x45, 0x23, 0x8A] ∧ OffsetRejected [0x45, 0x23, 0x8A] 5) ∧
    ((holding (.decOffset 4 [0x00, 0x00, 0x01])).req.HoldsInput [0x00, 0x00, 0x01] ∧ OffsetRejected [0x00, 0x00, 0x01] 4) ∧
    ((holding (.decOffset 4 [0x00, 0x00, 0x80])).req.HoldsInput [0x00, 0x00, 0x80] ∧ OffsetRejected [0x00, 0x00, 0x80] 4) :=
  ⟨⟨⟨rfl, by decide⟩, .inl ⟨0, by decide, by unfold LegalPair; decide⟩⟩, ⟨⟨rfl, by decide⟩, .inr (.inl (by decide))⟩,
    ⟨⟨rfl, by decide⟩, .inr (.inr (.inl (by decide)))⟩, ⟨⟨rfl, by decide⟩, .inr (.inr (.inr (.inl (by decide))))⟩,
    ⟨⟨rfl, by decide⟩, .inr (.inr (.inr (.inr (by decide))))⟩⟩

/-- Nothing to reject at one digit and at fifteen. -/
theorem witness_DecOffsetAnswers_accepted :
    ((holding (.decOffset 1 [0x87])).req.HoldsInput [0x87] ∧ ¬OffsetRejected [0x87] 1) ∧
    ((holding (.decOffset 15 [0x99, 0x99, 0x99, 0x99, 0x99, 0x99, 0x99, 0x89])).req.HoldsInput
        [0x99, 0x99, 0x99, 0x99, 0x99, 0x99, 0x99, 0x89] ∧
      ¬OffsetRejected [0x99, 0x99, 0x99, 0x99, 0x99, 0x99, 0x99, 0x89] 15) := by
  refine ⟨⟨⟨rfl, by decide⟩, ?_⟩, ⟨rfl, by decide⟩, ?_⟩
  · rintro (⟨j, hj, -⟩ | h | h | h | h)
    · exact absurd hj (by omega)
    all_goals revert h; decide
  · rintro (⟨j, hj, h⟩ | h | h | h | h)
    · revert j; unfold LegalPair; decide
    all_goals revert h; decide

/-- The largest frequency, both ways. -/
theorem witness_FreqCodecsAreInverse :
    ((holding (.encFreq 9999999999)).req.a = some 0x2540BE3FF ∧ (0x2540BE3FF : Word64).toNat ≤ 9999999999 ∧
      5 ≤ Config.example.maxFrameBytes ∧
      (holding (.decFreq [0x99, 0x99, 0x99, 0x99, 0x99])).req.TakesOutput (bytesRecord [0x99, 0x99, 0x99, 0x99, 0x99])) ∧
    (∃ (t : State) (r : Resp), exec .decFreq (holding (.decFreq [0x99, 0x99, 0x99, 0x99, 0x99])) = .next t ∧ t.resp = some r ∧
      r.status = 0x00 ∧ r.r = some 0x2540BE3FF) := by
  refine ⟨⟨rfl, by decide, by decide, rfl, ?_⟩, _, _, rfl, rfl, rfl, rfl⟩
  rintro n h
  cases h
  decide

theorem witness_LevelCodecsAreInverse :
    ((holding (.encLevel 255)).req.a = some 255 ∧ (255 : Word64).toNat ≤ 255 ∧ 2 ≤ Config.example.maxFrameBytes ∧
      (holding (.decLevel [0x55, 0x02])).req.TakesOutput (bytesRecord [0x55, 0x02])) ∧
    (∃ (t : State) (r : Resp), exec .decLevel (holding (.decLevel [0x55, 0x02])) = .next t ∧ t.resp = some r ∧
      r.status = 0x00 ∧ r.r = some 255) := by
  refine ⟨⟨rfl, by decide, by decide, rfl, ?_⟩, _, _, rfl, rfl, rfl, rfl⟩
  rintro n h
  cases h
  decide

/-- The least digit count with its most negative number, both ways, and zero with the greatest. -/
theorem witness_OffsetCodecsAreInverse :
    ((holding (.encOffset 1 (-9))).req.a = some 0xFFFFFFFFFFFFFFF7 ∧
      (0xFFFFFFFFFFFFFFF7 : Word64).toInt.natAbs ≤ 10 ^ 1 - 1 ∧ 1 / 2 + 1 ≤ Config.example.maxFrameBytes ∧
      (holding (.decOffset 1 [0x89])).req.TakesOutput (bytesRecord [0x89])) ∧
    ((holding (.encOffset 15 0)).req.a = some 0 ∧ (0 : Word64).toInt.natAbs ≤ 10 ^ 15 - 1 ∧ 1 ≤ 15) ∧
    (∃ (t : State) (r : Resp), exec (.decOffset 1) (holding (.decOffset 1 [0x89])) = .next t ∧ t.resp = some r ∧
      r.status = 0x00 ∧ r.r = some 0xFFFFFFFFFFFFFFF7) := by
  refine ⟨⟨rfl, by decide, by decide, rfl, ?_⟩, by decide, _, _, rfl, rfl, rfl, rfl⟩
  rintro n h
  cases h
  decide

/-- A frame of 64 bytes, the buffer's size under TC: 58 payload bytes behind a one-byte command. -/
def longFrame : FrameArg := ⟨0x94, 0xE0, 0x05, none, List.replicate 58 0x00⟩

/-- F_CLEN 0 and 3, a frame one byte too long, and a frame that just fits. -/
theorem witness_ToBytesAnswers :
    FrameOperandBad { holding (.toBytes longFrame) with req := Req.unwritten.filled.write Config.example .fClen 0 } ∧
    FrameOperandBad { holding (.toBytes longFrame) with req := Req.unwritten.filled.write Config.example .fClen 3 } ∧
    FrameOperandBad (holding (.toBytes { longFrame with cmd1 := some 0x01 })) ∧
    ((holding (.toBytes longFrame)).req.HoldsFrame 0x94 0xE0 [0x05] (List.replicate 58 0x00) ∧
      5 + [0x05].length + (List.replicate 58 0x00).length ≤ (holding (.toBytes longFrame)).cfg.maxFrameBytes) := by
  refine ⟨⟨0, 0, rfl, rfl, by decide⟩, ⟨3, 0, rfl, rfl, by decide⟩, ⟨2, 58, rfl, by decide, by decide⟩, ?_⟩
  unfold Req.HoldsFrame
  decide

/-- Lengths 65, 5, and a full sequence with each of the three wrong bytes. -/
theorem witness_ParseAnswers_rejected :
    ((Req.unwritten.write Config.example .ibLen 65).ibLen = some 65 ∧ Config.example.maxFrameBytes < 65) ∧
    ((holding (.parse [0xFE, 0xFE, 0xE0, 0x94, 0xFB])).req.ibLen = some 5 ∧ 5 ≤ Config.example.maxFrameBytes ∧ 5 < 6) ∧
    (∀ b ∈ ([[0xFD, 0xFE, 0xE0, 0x94, 0xFB, 0xFD], [0xFE, 0xFD, 0xE0, 0x94, 0xFB, 0xFD], [0xFE, 0xFE, 0xE0, 0x94, 0xFB, 0xFE]] :
        List (List Byte)),
      (holding (.parse b)).req.ibLen = some 6 ∧ 6 ≤ Config.example.maxFrameBytes ∧ (holding (.parse b)).req.HoldsInput b ∧
        (b.getD 0 0 ≠ 0xFE ∨ b.getD 1 0 ≠ 0xFE ∨ b.getD (6 - 1) 0 ≠ 0xFD)) := by
  unfold Req.HoldsInput; decide

/-- A code byte with a body of one byte, a byte that is no code with more behind it, and a code byte with one byte behind it. -/
theorem witness_ParseAnswers_accepted :
    ((holding (.parse [0xFE, 0xFE, 0xE0, 0x94, 0x14, 0xFD])).req.HoldsInput ([0xFE, 0xFE, 0xE0, 0x94, 0x14] ++ [] ++ [0xFD]) ∧
      6 + ([] : List Byte).length ≤ Config.example.maxFrameBytes ∧ (0x14 : Byte) ∈ Config.example.subcmdCodes) ∧
    ((holding (.parse [0xFE, 0xFE, 0xE0, 0x94, 0x05, 0x14, 0xFD])).req.HoldsInput
        ([0xFE, 0xFE, 0xE0, 0x94, 0x05] ++ [0x14] ++ [0xFD]) ∧ (0x05 : Byte) ∉ Config.example.subcmdCodes) ∧
    ((holding (.parse [0xFE, 0xFE, 0xE0, 0x94, 0x14, 0x0A, 0xFD])).req.HoldsInput
        ([0xFE, 0xFE, 0xE0, 0x94, 0x14] ++ [0x0A] ++ [0xFD]) ∧ 6 + [0x0A].length ≤ Config.example.maxFrameBytes ∧
      (0x14 : Byte) ∈ Config.example.subcmdCodes) := by
  unfold Req.HoldsInput; decide

/-- WF_F failing and holding at the buffer's bound, for the three predicates alike. -/
theorem witness_IsAckAnswers :
    FrameOperandBad (holding (.isAck { longFrame with cmd1 := some 0x01 })) ∧
      FrameOperandGood (holding (.isAck longFrame)) 1 ∧ (holding (.isAck longFrame)).req.fCmd0 = some 0x05 :=
  ⟨⟨2, 58, rfl, by decide, by decide⟩, ⟨58, by decide, by decide, by decide, by decide⟩, by decide⟩

theorem witness_IsNakAnswers :
    FrameOperandBad (holding (.isNak { longFrame with cmd1 := some 0x01 })) ∧
      FrameOperandGood (holding (.isNak longFrame)) 1 ∧ (holding (.isNak longFrame)).req.fCmd0 = some 0x05 :=
  ⟨⟨2, 58, rfl, by decide, by decide⟩, ⟨58, by decide, by decide, by decide, by decide⟩, by decide⟩

theorem witness_IsEchoAnswers :
    FrameOperandBad (holding (.isEcho { longFrame with cmd1 := some 0x01 })) ∧
      FrameOperandGood (holding (.isEcho longFrame)) 1 ∧ (holding (.isEcho longFrame)).req.fDest = some 0x94 ∧
      (holding (.isEcho longFrame)).req.fSrc = some 0xE0 :=
  ⟨⟨2, 58, rfl, by decide, by decide⟩, ⟨58, by decide, by decide, by decide, by decide⟩, by decide, by decide⟩

theorem witness_IsNakAnswers_acknowledged :
    ∃ s t : State, exec .isAck s = .next t ∧ t.respValue .r = some 1 :=
  ⟨holding (.isAck ⟨0xE0, 0x94, 0xFB, none, []⟩), _, rfl, rfl⟩

/-- A two-byte command and a one-byte code command without payload are split-consistent; an input PARSE accepts. -/
theorem witness_FrameCodecsAreInverse :
    ((holding (.toBytes ⟨0x94, 0xE0, 0x14, some 0x01, [0x50, 0x02]⟩)).req.HoldsFrame 0x94 0xE0 [0x14, 0x01] [0x50, 0x02] ∧
      SplitConsistent Config.example [0x14, 0x01] [0x50, 0x02] ∧ SplitConsistent Config.example [0x14] [] ∧
      (holding (.parse [0xFE, 0xFE, 0x94, 0xE0, 0x14, 0x01, 0x50, 0x02, 0xFD])).req.TakesOutput
        (bytesRecord [0xFE, 0xFE, 0x94, 0xE0, 0x14, 0x01, 0x50, 0x02, 0xFD])) ∧
    ((holding (.parse [0xFE, 0xFE, 0x94, 0xE0, 0x14, 0xFD])).req.HoldsInput [0xFE, 0xFE, 0x94, 0xE0, 0x14, 0xFD] ∧
      ∃ (t : State) (r : Resp), exec .parse (holding (.parse [0xFE, 0xFE, 0x94, 0xE0, 0x14, 0xFD])) = .next t ∧
        t.resp = some r ∧ r.status = 0x00) := by
  refine ⟨⟨by unfold Req.HoldsFrame; decide, ⟨fun _ x h => ?_, (fun h => by cases h)⟩, ⟨(fun h => by cases h), fun _ _ => rfl⟩, rfl,
    ?_⟩, ⟨rfl, by decide⟩, _, _, rfl, rfl, rfl⟩
  · cases h
    decide
  · rintro n h
    cases h
    decide

/-- The two edges (V-T4, V-T5), and their wire forms as PARSE's input. -/
theorem witness_KnownEdgeIsKept :
    ((holding (.toBytes ⟨0x94, 0xE0, 0x14, none, [0x01]⟩)).req.HoldsFrame 0x94 0xE0 [0x14] [0x01] ∧
      7 + ([] : List Byte).length ≤ Config.example.maxFrameBytes ∧ (0x14 : Byte) ∈ Config.example.subcmdCodes ∧
      (holding (.parse [0xFE, 0xFE, 0x94, 0xE0, 0x14, 0x01, 0xFD])).req.TakesOutput
        (bytesRecord [0xFE, 0xFE, 0x94, 0xE0, 0x14, 0x01, 0xFD])) ∧
    ((holding (.toBytes ⟨0x94, 0xE0, 0x05, some 0x01, []⟩)).req.HoldsFrame 0x94 0xE0 [0x05, 0x01] [] ∧
      (0x05 : Byte) ∉ Config.example.subcmdCodes ∧
      (holding (.parse [0xFE, 0xFE, 0x94, 0xE0, 0x05, 0x01, 0xFD])).req.TakesOutput
        (bytesRecord [0xFE, 0xFE, 0x94, 0xE0, 0x05, 0x01, 0xFD])) := by
  refine ⟨⟨by unfold Req.HoldsFrame; decide, by decide, by decide, rfl, ?_⟩, by unfold Req.HoldsFrame; decide, by decide, rfl,
    ?_⟩ <;>
  · rintro n h
    cases h
    decide

theorem witness_StoringOperationsFrame :
    ∃ t, exec .encFreq (holding (.encFreq 9999999999)) = .next t := ⟨_, rfl⟩

theorem witness_NumberOperationsFrame :
    ∃ t, exec (.decOffset 15) (holding (.decOffset 15 [0, 0, 0, 0, 0, 0, 0, 0])) = .next t ∧ 15 < 16 := ⟨_, rfl, by decide⟩

theorem witness_ParseFrame :
    ∃ t, exec .parse (holding (.parse [0xFE, 0xFE, 0xE0, 0x94, 0xFB, 0xFD])) = .next t := ⟨_, rfl⟩

/-- A success, an error, and an unassigned word. -/
theorem witness_ResponseReplacedWhole :
    (∃ t r, exec .encLevel (holding (.encLevel 255)) = .next t ∧ t.resp = some r ∧ r.status = 0x00) ∧
    (∃ t r, exec .encLevel (holding (.encLevel 256)) = .next t ∧ t.resp = some r ∧ r.status ≠ 0x00) ∧
    (∃ t, (State.reset.withFetchWord 16 0x000C).req.cmd = some 0x000C ∧ decode 0x000C = .error .reservedOp ∧
      transaction (State.reset.withFetchWord 16 0x000C) = .next t) :=
  ⟨⟨_, _, rfl, rfl, rfl⟩, ⟨_, _, rfl, rfl, by decide⟩, ⟨_, rfl, rfl, rfl⟩⟩

theorem witness_StatusKindsPerOperation :
    (∃ t r, exec .decLevel (holding (.decLevel [0x56, 0x02])) = .next t ∧ t.resp = some r) ∧
      ∃ t, transaction (State.reset.withFetchWord 16 0x00FC) = .next t := ⟨⟨_, _, rfl, rfl⟩, _, rfl⟩

theorem witness_ErrorIsNoTrap :
    ∃ t r, transaction (issuing (.encLevel 256)) = .next t ∧ t.resp = some r ∧ r.status ≠ 0x00 :=
  ⟨_, _, rfl, rfl, by decide⟩

/-- A whole frame operand with two command bytes; the two faults, and the second one at the port. -/
theorem witness_WrittenRequestIsAnswered :
    ((holding (.toBytes ⟨0x94, 0xE0, 0x14, some 0x01, [0x50]⟩)).req.cmd = some 0x0007 ∧
      ∀ i, decode 0x0007 = .ok i →
        (holding (.toBytes ⟨0x94, 0xE0, 0x14, some 0x01, [0x50]⟩)).req.Written Config.example i) ∧
    step { State.reset with host := [.read .r] } = .fault (.noValue .r) ∧
    step { State.reset with host := [.issue] } = .fault (.unwrittenReqField .cmd) ∧
    step { State.reset with port := .busy Req.unwritten 0, host := [.clock allPins] } = .fault (.unwrittenReqField .cmd) ∧
    step { State.reset with port := .busy Req.unwritten 0 } = .fault (.unwrittenReqField .cmd) := by
  refine ⟨⟨by decide, fun i h => ?_⟩, rfl, rfl, rfl, rfl⟩
  cases h
  refine ⟨rfl, rfl, rfl, rfl, fun _ => rfl, rfl, fun n h j hj _ => ?_⟩
  cases h
  obtain rfl : j = 0 := Nat.lt_one_iff.mp hj
  rfl

theorem witness_UnwrittenNumberFaults : State.reset.req.a = none ∧ 1 ≠ 0 := by decide

/-- No length; the last of five bytes missing; the last byte of a whole buffer missing. -/
theorem witness_UnwrittenInputFaults :
    State.reset.req.ibLen = none ∧
    (({ (AsmLine.decFreq [0, 0, 0, 0]).fill Config.example Req.unwritten with ibLen := some 5 } : Req).ib.read 4 = none ∧ 4 < 5 ∧
      5 ≤ Config.example.maxFrameBytes) ∧
    ((Req.unwritten.write Config.example .ibLen 64).ibLen = some 64 ∧ 6 ≤ 64 ∧ 64 ≤ Config.example.maxFrameBytes ∧
      (Req.unwritten.write Config.example .ibLen 64).ib.read 63 = none) := by decide

/-- Each field of the frame operand missing where its lengths are written, F_CMD1 with F_CLEN = 2. -/
theorem witness_UnwrittenFrameFaults :
    State.reset.req.fClen = none ∧ State.reset.req.fPlen = none ∧
    (let q : Req := { Req.unwritten with fClen := some 2, fPlen := some 57 };
      FrameOperandGood { State.reset with req := q } 2 ∧ q.fCmd0 = none ∧ q.fSrc = none ∧ q.fDest = none ∧
        q.fCmd1 = none ∧ q.fPayload.read 56 = none ∧ 56 < 57) :=
  ⟨rfl, rfl, ⟨57, rfl, rfl, .inr rfl, by decide⟩, rfl, rfl, rfl, rfl, rfl, by decide⟩

/-- The two requests differ in A, which PARSE does not read, and in the input byte past IB_LEN. -/
theorem witness_DontCareFieldsDoNotMatter :
    let s := holding (.isAck ⟨0xE0, 0x94, 0xFB, none, []⟩)
    let s' : State := { s with req := s.req.write s.cfg .a 7 }
    s'.cfg = s.cfg ∧ s'.req ≠ s.req ∧ s.req.AgreeOn s'.req .isAck ∧ ∃ t, exec .isAck s = .next t :=
  ⟨rfl, by decide, ⟨rfl, rfl, rfl⟩, _, rfl⟩

theorem witness_ResponseDependsOnRequestAlone :
    let s := holding (.encFreq 1)
    let s' := answered { s with port := .answered, edges := 5 } (Resp.only 0x02)
    s'.cfg = s.cfg ∧ s'.req = s.req ∧ (∃ t, transaction s = .next t) ∧
      transaction State.reset = .fault (.unwrittenReqField .cmd) := ⟨rfl, rfl, ⟨_, rfl⟩, rfl⟩

theorem witness_RepeatedRequestAnswersAlike :
    (∃ t, step { issuing (.encFreq 1) with host := [.issue, .issue] } = .next t) ∧
      ∃ t, step { answered State.reset (numberRecord 1) with host := [.read .r] } = .next t := ⟨⟨_, rfl⟩, _, rfl⟩

theorem witness_ConfigurationIsFixed : ∃ t, step { issuing (.encFreq 1) with host := [.reset] } = .next t := ⟨_, rfl⟩

/-- A step that changes REQ, and two that change RESP, one with no action pending. -/
theorem witness_WritersOfReqAndResp :
    (∃ t, step { State.reset with host := [.write .a 1] } = .next t ∧ t.req ≠ State.reset.req) ∧
      (∃ t, step (issuing (.encFreq 1)) = .next t ∧ t.resp ≠ (issuing (.encFreq 1)).resp) ∧
      ∃ t, step (waitingFor (.encFreq 1)) = .next t ∧ t.resp ≠ (waitingFor (.encFreq 1)).resp :=
  ⟨⟨_, rfl, by decide⟩, ⟨_, rfl, by decide⟩, _, rfl, by decide⟩

/-- A request while one is outstanding, and a write one byte past the buffer. -/
theorem witness_RefusalsAreOutsideTheTable :
    step { issuing (.encFreq 1) with port := .answered } = .refused .requestOutstanding ∧
      step { State.reset with host := [.write (.ib 64) 0] } = .refused (.noSuchBufferByte (.ib 64)) := ⟨rfl, rfl⟩

theorem witness_ReadOfNoValueFaults :
    let s : State := { answered State.reset (numberRecord 1) with host := [.read .r] }
    s.host = .read .r :: [] ∧ s.respValue .r = some 1 ∧ s.respValue .obLen = none := ⟨rfl, rfl, rfl⟩

/-- The last byte of each buffer. -/
theorem witness_HostWriteStoresField : 63 < Config.example.maxFrameBytes ∧ 57 < Config.example.maxFrameBytes - 6 := by decide

/-- A byte of OB into the last byte of F_PAYLOAD, PF_CLEN into F_CLEN, a length into a byte, and a field without a value. -/
theorem witness_CopyFeedsPayload :
    let s : State := { answered State.reset (bytesRecord [0x50, 0x02, 0x80]) with host := [.copy (.ob 2) (.fPayload 57)] }
    let u : State := { answered State.reset (frameRecord 0xE0 0x94 [0x14, 0x0A] [0x01]) with host := [.copy .pfClen .fClen] }
    (s.host = .copy (.ob 2) (.fPayload 57) :: [] ∧ s.respValue (.ob 2) = some 0x80 ∧
      ReqField.inBuffer s.cfg (.fPayload 57) = true) ∧
    (u.host = .copy .pfClen .fClen :: [] ∧ u.respValue .pfClen = some 2 ∧ ReqField.inBuffer u.cfg .fClen = true) ∧
    (s.respValue .obLen = some 3 ∧ ReqField.inBuffer s.cfg (.ib 63) = true) ∧ s.respValue .r = none := by decide

theorem witness_LenBitsIsLeastWidth : Config.example.Wf ∧ Config.example.maxFrameBytes + 1 ≤ 2 ^ 7 := by decide

/-- Full buffers: 64 input bytes, 58 payload bytes. -/
theorem witness_AssemblerLineFillsRequest :
    Config.example.Wf ∧ (AsmLine.encOffset 15 1).instr.wf = true ∧
      (List.replicate 64 (0x00 : Byte)).length ≤ Config.example.maxFrameBytes ∧
      longFrame.payload.length ≤ Config.example.maxFrameBytes - 6 := by decide

theorem witness_PortAcceptsOnlyWhenReady :
    allPins.rst = false ∧ allPins.reqValid = true ∧ quietPins.rst = false ∧ quietPins.reqValid = false ∧
      State.reset.port = .ready ∧ ({ State.reset with port := .answered } : State).port.reqReady = false :=
  ⟨rfl, rfl, rfl, rfl, rfl, rfl⟩

/-- A latency of 2: the edge right after acceptance is too early. -/
theorem witness_PortAnswersNoEarlierThanLatency :
    let s : State := { State.reset with cfg := { Config.example with responseLatency := 2 }, port := .busy Req.unwritten 0 }
    s.port = .busy Req.unwritten 0 ∧ allPins.rst = false ∧ 0 + 1 < s.cfg.responseLatency := ⟨rfl, rfl, by decide⟩

theorem witness_PortTakesResponse :
    ({ State.reset with port := .answered } : State).port.rspValid = true ∧ allPins.rst = false := ⟨rfl, rfl⟩

theorem witness_PinsShowResponse :
    (answered State.reset (numberRecord 1)).respValue .r = some 1 ∧
      (answered State.reset (numberRecord 1)).respValue .pfClen = none := ⟨rfl, rfl⟩

/-- A host write and a quiet edge between acceptance and the answer, with the least latency they allow. -/
theorem witness_PortRealisesTransaction :
    let quiet : Pins := { allPins with answer := false }
    let between : List HostAction := [.write .a 7, .clock quiet]
    let s : State := { holding (.encFreq 1) with
      cfg := { Config.example with responseLatency := 2 }, host := .clock allPins :: (between ++ [.clock allPins]) }
    s.port = .ready ∧ allPins.rst = false ∧ allPins.reqValid = true ∧ allPins.answer = true ∧
      (∀ x ∈ between, (∃ p : Pins, x = .clock p ∧ p.rst = false ∧ p.answer = false) ∨
        ∃ f v, x = .write f v ∧ f.inBuffer s.cfg = true) ∧
      s.cfg.responseLatency ≤ clockEdges between + 1 ∧ s.host = .clock allPins :: (between ++ [.clock allPins]) ∧
      ∃ u, transaction s = .next u := by
  refine ⟨rfl, rfl, rfl, rfl, fun x hx => ?_, by decide, rfl, _, rfl⟩
  rcases List.mem_cons.mp hx with rfl | hx
  · exact .inr ⟨.a, 7, rfl, rfl⟩
  · exact .inl ⟨_, List.mem_singleton.mp hx, rfl, rfl⟩

/-- A waiting request with a host write pending, one with nothing pending, and one on fields never written. -/
theorem witness_AcceptedRequestIsAnswered :
    (let s : State := { waitingFor (.encFreq 1) with host := [.write .a 7, .clock quietPins] };
      s.port = .busy (holding (.encFreq 1)).req 0 ∧ (∀ x ∈ s.host, x.isReset = false) ∧
        ∃ u, transaction { s with req := (holding (.encFreq 1)).req } = .next u) ∧
    ((waitingFor (.encFreq 1)).host = [] ∧
      ∃ u, transaction { waitingFor (.encFreq 1) with req := (holding (.encFreq 1)).req } = .next u) ∧
    transaction { State.reset with port := .busy Req.unwritten 0 } = .fault (.unwrittenReqField .cmd) :=
  ⟨⟨rfl, by decide, _, rfl⟩, ⟨rfl, _, rfl⟩, rfl⟩

/-- A state whose run has ended, with a response that stays offered. -/
theorem witness_RunEndsOrStops :
    ({ answered State.reset (numberRecord 1) with port := .answered } : State).runEnded := ⟨rfl, rfl⟩

/-- Two requests in one run from reset, and every step of it. -/
theorem witness_RunLeavesLastResponse :
    let l := (AsmLine.encLevel 255).actions ++ (AsmLine.encLevel 256).actions
    (∀ x ∈ l, x.isReset = false) ∧ ∃ t, Host.Core.run Sys2Proof.core 6 (runStart Config.example l) = .next t :=
  ⟨by decide, _, rfl⟩

/-- A transaction, a waiting request answered, and a step that produces no response. -/
theorem witness_EachResponseIsItsRequests :
    (∃ t, step (issuing (.encFreq 1)) = .next t ∧ producesResponse (issuing (.encFreq 1)) t = true) ∧
    (∃ t, step (waitingFor (.encFreq 1)) = .next t ∧ producesResponse (waitingFor (.encFreq 1)) t = true) ∧
    ∃ t, step (runStart Config.example [.write .a 1]) = .next t ∧
      producesResponse (runStart Config.example [.write .a 1]) t = false ∧ (HostAction.write .a 1).isReset = false :=
  ⟨⟨_, rfl, rfl⟩, ⟨_, rfl, rfl⟩, _, rfl, rfl, rfl⟩

/-- The bounds of the three domains; an input the decoder accepts and one it does not; the bytes of the greatest frequency. -/
theorem witness_EncodersAreBijective :
    ((Instr.encOffset 15).wf = true ∧ decoderOf (.encOffset 15) = some (.decOffset 15) ∧
      decoderOf .encFreq = some .decFreq ∧ decoderOf .encLevel = some .decLevel) ∧
    (encoderDomain .encFreq 0x2540BE3FF ∧ encoderDomain .encLevel 255 ∧ encoderDomain (.encOffset 1) 0xFFFFFFFFFFFFFFF7 ∧
      encoderDomain (.encOffset 15) 999999999999999) ∧
    ((holding (.decFreq [0x99, 0x99, 0x99, 0x99, 0x99])).cfg.Wf ∧
      (holding (.decFreq [0x99, 0x99, 0x99, 0x99, 0x99])).req.HoldsInput [0x99, 0x99, 0x99, 0x99, 0x99] ∧
      ∃ t r, exec .decFreq (holding (.decFreq [0x99, 0x99, 0x99, 0x99, 0x99])) = .next t ∧ t.resp = some r ∧ r.status = 0x00) ∧
    (∃ t r, exec (.decOffset 1) (holding (.decOffset 1 [0x80])) = .next t ∧ t.resp = some r ∧ r.status ≠ 0x00) ∧
    EncodesTo .encFreq 0x2540BE3FF [0x99, 0x99, 0x99, 0x99, 0x99] := by
  refine ⟨⟨rfl, rfl, rfl, rfl⟩, ⟨?_, ?_, ?_, ?_⟩, ⟨by decide, ⟨rfl, by decide⟩, _, _, rfl, rfl, rfl⟩, ⟨_, _, rfl, rfl, by decide⟩,
    fun s h => ?_⟩
  · unfold encoderDomain; decide
  · unfold encoderDomain; decide
  · unfold encoderDomain; decide
  · unfold encoderDomain; decide
  · exact answers_of_ok (respEncFreq_some h) (bytes_isBytes [0x99, 0x99, 0x99, 0x99, 0x99])

end Sys2Proof.Tests
end

section
/-! PROOFS. The widths of the fields and what a host write stores in them (00_scope R7, R9; 10_state R19). -/

namespace Sys2Proof.Machine

/-- A width holds every length up to MAX_FRAME_BYTES exactly when it is LEN_BITS or more. -/
theorem lenBits_le_iff {c : Config} (h : c.maxFrameBytes ≠ 0) (k : Nat) :
    lenBits c ≤ k ↔ c.maxFrameBytes + 1 ≤ 2 ^ k :=
  Nat.log2_lt h

/-- A host write inside its buffer answers, with `Req.write` of the number in REQ. -/
theorem hostWrite_of_inBuffer {f : ReqField} {s : State} (v : Int) (h : f.inBuffer s.cfg = true) :
    hostWrite f v s = .next { s with req := s.req.write s.cfg f v } :=
  if_pos h

/-- A byte written to a buffer is held at its index, and at that index alone. -/
theorem write_stores_at_index_only (m : Memory) (i : Nat) (b : Byte) :
    (m.write i b).read i = some b ∧ ∀ j, j ≠ i → (m.write i b).read j = m.read j :=
  ⟨read_write_same m i b, fun _ hj => read_write_other m b hj⟩

end Sys2Proof.Machine

namespace Sys2Proof
open Machine

/-- Settles O47: both halves are `lenBits_le_iff`, the first at LEN_BITS itself. -/
theorem lenBitsIsLeastWidth : Obligations.LenBitsIsLeastWidth := by
  rintro c ⟨-, -, hroom, -⟩
  have hpos : c.maxFrameBytes ≠ 0 := by omega
  exact ⟨(lenBits_le_iff hpos _).mp le_rfl, fun k => (lenBits_le_iff hpos k).mpr⟩

/-- Settles O45: a field that is no buffer byte is always there to write; a buffer byte is while its index is inside, and its
write leaves the other bytes as they were. -/
theorem hostWriteStoresField : Obligations.HostWriteStoresField := by
  intro s v
  have hwrite (f : ReqField) := hostWrite_of_inBuffer (f := f) (s := s) v
  refine ⟨hwrite .cmd rfl, hwrite .a rfl, hwrite .ibLen rfl, hwrite .fDest rfl, hwrite .fSrc rfl, hwrite .fClen rfl,
    hwrite .fCmd0 rfl, hwrite .fCmd1 rfl, hwrite .fPlen rfl, fun i hi => ?ib, fun i hi => ?fPayload⟩
  case ib => exact ⟨_, hostWrite_of_inBuffer v (decide_eq_true hi), write_stores_at_index_only _ i _⟩
  case fPayload => exact ⟨_, hostWrite_of_inBuffer v (decide_eq_true hi), write_stores_at_index_only _ i _⟩

end Sys2Proof
end

section
/-! PROOFS. What keeps the machine's invariant (10_state R20, R21, R27), who changes the configuration, REQ and RESP (R18, R23),
and which actions are refused (R31). -/

namespace Sys2Proof.Machine

/-! ## The invariant -/

/-- After a reset only the parameters are left for the invariant to speak of. -/
theorem inv_resetBlock {s : State} (hs : s.Inv) : (resetBlock s).Inv where
  cfgWf := hs.cfgWf
  reqWf := reqWf_unwritten s.cfg
  respWf _ h := nomatch h
  portWf := trivial

/-- A host write inside its buffer keeps the invariant. -/
theorem inv_write {s : State} {f : ReqField} (l : List HostAction) (v : Int) (hs : s.Inv) (hf : f.inBuffer s.cfg = true) :
    State.Inv { s with host := l, req := s.req.write s.cfg f v } :=
  ⟨hs.cfgWf, reqWf_write v hs.reqWf hf, hs.respWf, hs.portWf⟩

/-- A clock edge keeps the invariant: the sampled request is the REQ of the accepting edge, and the record produced is a
transaction's. -/
theorem inv_clockEdge {p : Pins} {s t : State} (hs : s.Inv) (h : clockEdge p s = .next t) : t.Inv := by
  have hcount : State.Inv { s with edges := s.edges + 1 } := ⟨hs.cfgWf, hs.reqWf, hs.respWf, hs.portWf⟩
  rcases clockEdge_next h with ⟨-, rfl⟩ | ⟨-, -, -, rfl⟩ | ⟨-, -, -, rfl⟩ | ⟨q, age, r, -, -, -, -, htr, rfl⟩ |
    ⟨q, age, -, hp, -, rfl⟩ | ⟨-, -, -, rfl⟩ | ⟨-, -, -, rfl⟩
  · exact inv_resetBlock hcount
  · exact ⟨hs.cfgWf, hs.reqWf, hs.respWf, hs.reqWf⟩
  · exact hcount
  · have hr : r.Wf s.cfg := transaction_respWf (s := { s with edges := s.edges + 1, req := q }) hs.cfgWf htr rfl
    exact ⟨hs.cfgWf, hs.reqWf, fun _ e => Option.some.inj e ▸ hr, trivial⟩
  · have hq : (Port.busy q age).Wf s.cfg := hp ▸ hs.portWf
    exact ⟨hs.cfgWf, hs.reqWf, hs.respWf, hq⟩
  · exact ⟨hs.cfgWf, hs.reqWf, hs.respWf, trivial⟩
  · exact hcount

/-- Every step keeps the invariant. -/
theorem inv_step {s t : State} (hs : s.Inv) (h : step s = .next t) : t.Inv := by
  have hpop (l : List HostAction) : State.Inv { s with host := l } := ⟨hs.cfgWf, hs.reqWf, hs.respWf, hs.portWf⟩
  rcases step_next h with ⟨-, ⟨-, rfl⟩ | ⟨-, hclock⟩⟩ | ⟨x, rest, -, hx⟩
  · exact hs
  · exact inv_clockEdge hs hclock
  rcases hx with ⟨f, v, -, hf, rfl⟩ | ⟨-, -, r, htr, rfl⟩ | ⟨f, v, -, -, rfl⟩ | ⟨a, b, v, -, -, hb, rfl⟩ | ⟨-, rfl⟩ |
    ⟨p, -, hclock⟩
  · exact inv_write rest v hs hf
  · have hr : r.Wf s.cfg := transaction_respWf (s := { s with host := rest }) hs.cfgWf htr rfl
    exact ⟨hs.cfgWf, hs.reqWf, fun _ e => Option.some.inj e ▸ hr, hs.portWf⟩
  · exact ⟨hs.cfgWf, hs.reqWf, hs.respWf, hs.portWf⟩
  · exact inv_write rest v hs hb
  · exact inv_resetBlock (hpop rest)
  · exact inv_clockEdge (hpop rest) hclock

/-- The example configuration is one 00_scope R6 allows. -/
theorem example_wf : Config.example.Wf := by decide

/-- The invariant holds right after reset. -/
theorem inv_reset : State.reset.Inv where
  cfgWf := example_wf
  reqWf := reqWf_unwritten _
  respWf _ h := nomatch h
  portWf := trivial

/-! ## Who changes what -/

/-- No clock edge changes the parameters. -/
theorem cfg_clockEdge {p : Pins} {s t : State} (h : clockEdge p s = .next t) : t.cfg = s.cfg := by
  rcases clockEdge_next h with ⟨-, rfl⟩ | ⟨-, -, -, rfl⟩ | ⟨-, -, -, rfl⟩ | ⟨q, age, r, -, -, -, -, -, rfl⟩ |
    ⟨q, age, -, -, -, rfl⟩ | ⟨-, -, -, rfl⟩ | ⟨-, -, -, rfl⟩ <;> rfl

/-- Without `rst` a clock edge leaves REQ as the host drives it (10_state R23). -/
theorem req_clockEdge {p : Pins} {s t : State} (h : clockEdge p s = .next t) : p.rst = true ∨ t.req = s.req := by
  rcases clockEdge_next h with ⟨hr, -⟩ | ⟨-, -, -, rfl⟩ | ⟨-, -, -, rfl⟩ | ⟨q, age, r, -, -, -, -, -, rfl⟩ |
    ⟨q, age, -, -, -, rfl⟩ | ⟨-, -, -, rfl⟩ | ⟨-, -, -, rfl⟩
  · exact .inl hr
  all_goals exact .inr rfl

/-- Without `rst` a clock edge changes RESP only where it answers a waiting request (10_state R23, R30). -/
theorem resp_clockEdge {p : Pins} {s t : State} (h : clockEdge p s = .next t) :
    p.rst = true ∨ (p.answer = true ∧ ∃ q age, s.port = .busy q age) ∨ t.resp = s.resp := by
  rcases clockEdge_next h with ⟨hr, -⟩ | ⟨-, -, -, rfl⟩ | ⟨-, -, -, rfl⟩ | ⟨q, age, r, -, hp, ha, -, -, -⟩ |
    ⟨q, age, -, -, -, rfl⟩ | ⟨-, -, -, rfl⟩ | ⟨-, -, -, rfl⟩
  · exact .inl hr
  · exact .inr (.inr rfl)
  · exact .inr (.inr rfl)
  · exact .inr (.inl ⟨ha, q, age, hp⟩)
  all_goals exact .inr (.inr rfl)

/-- No step changes the parameters. -/
theorem cfg_step {s t : State} (h : step s = .next t) : t.cfg = s.cfg := by
  rcases step_next h with ⟨-, ⟨-, rfl⟩ | ⟨-, hclock⟩⟩ | ⟨x, rest, -, hx⟩
  · rfl
  · exact cfg_clockEdge hclock
  rcases hx with ⟨f, v, -, -, rfl⟩ | ⟨-, -, r, -, rfl⟩ | ⟨f, v, -, -, rfl⟩ | ⟨a, b, v, -, -, -, rfl⟩ | ⟨-, rfl⟩ |
    ⟨p, -, hclock⟩
  · rfl
  · rfl
  · rfl
  · rfl
  · rfl
  · exact cfg_clockEdge (s := { s with host := rest }) hclock

/-- The first pending action changes REQ only as the host's write, copy or reset. -/
theorem req_step_cons {s t : State} {x : HostAction} {rest : List HostAction} (hh : s.host = x :: rest)
    (h : step s = .next t) (hne : t.req ≠ s.req) :
    x = .reset ∨ (∃ f v, x = .write f v) ∨ (∃ a b, x = .copy a b) ∨ ∃ p : Pins, x = .clock p ∧ p.rst = true := by
  rcases step_next h with ⟨hnil, -⟩ | ⟨x', rest', hh', hx⟩
  · cases hh.symm.trans hnil
  cases hh.symm.trans hh'
  rcases hx with ⟨f, v, rfl, -, -⟩ | ⟨-, -, r, -, rfl⟩ | ⟨f, v, -, -, rfl⟩ | ⟨a, b, v, rfl, -, -, -⟩ | ⟨rfl, -⟩ |
    ⟨p, rfl, hclock⟩
  · exact .inr (.inl ⟨f, v, rfl⟩)
  · exact absurd rfl hne
  · exact absurd rfl hne
  · exact .inr (.inr (.inl ⟨a, b, rfl⟩))
  · exact .inl rfl
  · exact .inr (.inr (.inr ⟨p, rfl, (req_clockEdge hclock).resolve_right hne⟩))

/-- The first pending action changes RESP only as a transaction, an answering edge, or a reset. -/
theorem resp_step_cons {s t : State} {x : HostAction} {rest : List HostAction} (hh : s.host = x :: rest)
    (h : step s = .next t) (hne : t.resp ≠ s.resp) :
    x = .reset ∨ x = .issue ∨
      ∃ p : Pins, x = .clock p ∧ (p.rst = true ∨ (p.answer = true ∧ ∃ q n, s.port = .busy q n)) := by
  rcases step_next h with ⟨hnil, -⟩ | ⟨x', rest', hh', hx⟩
  · cases hh.symm.trans hnil
  cases hh.symm.trans hh'
  rcases hx with ⟨f, v, -, -, rfl⟩ | ⟨rfl, -⟩ | ⟨f, v, -, -, rfl⟩ | ⟨a, b, v, -, -, -, rfl⟩ | ⟨rfl, -⟩ | ⟨p, rfl, hclock⟩
  · exact absurd rfl hne
  · exact .inr (.inl rfl)
  · exact absurd rfl hne
  · exact absurd rfl hne
  · exact .inl rfl
  · refine .inr (.inr ⟨p, rfl, ?_⟩)
    rcases resp_clockEdge hclock with hr | ha | hsame
    · exact .inl hr
    · exact .inr ha
    · exact absurd hsame hne

/-- With no action pending a step leaves REQ as it was, and changes RESP only where a request waits. -/
theorem req_resp_step_nil {s t : State} (hh : s.host = []) (h : step s = .next t) :
    t.req = s.req ∧ (t.resp ≠ s.resp → ∃ q n, s.port = .busy q n) := by
  rcases step_next h with ⟨-, ⟨-, rfl⟩ | ⟨hw, hclock⟩⟩ | ⟨x, rest, hh', -⟩
  · exact ⟨rfl, fun hne => absurd rfl hne⟩
  · exact ⟨(req_clockEdge hclock).resolve_left nofun, fun _ => waiting_iff.mp hw⟩
  · cases hh.symm.trans hh'

/-! ## Refusals -/

/-- When a host action is refused (log 8). -/
theorem runAction_refused {x : HostAction} {s : State} {r : Refusal} (h : runAction x s = .refused r) :
    (r = .requestOutstanding ∧ x = .issue ∧ s.port.reqReady = false) ∨
      ∃ f, r = .noSuchBufferByte f ∧ f.inBuffer s.cfg = false ∧ ((∃ v, x = .write f v) ∨ ∃ g, x = .copy g f) := by
  cases x with
  | write f v =>
    obtain ⟨hf, rfl⟩ := hostWrite_refused h
    exact .inr ⟨f, rfl, hf, .inl ⟨v, rfl⟩⟩
  | issue =>
    simp only [runAction, issueRequest] at h
    split at h
    · exact absurd h transaction_refused
    · next hready => cases h; exact .inl ⟨rfl, rfl, Bool.eq_false_iff.mpr hready⟩
  | read f =>
    simp only [runAction, hostRead] at h
    split at h <;> cases h
  | copy a b =>
    simp only [runAction, hostCopy] at h
    split at h
    · obtain ⟨hb, rfl⟩ := hostWrite_refused h
      exact .inr ⟨b, rfl, hb, .inr ⟨a, rfl⟩⟩
    · cases h
  | reset => cases h
  | clock p => exact absurd h clockEdge_refused

/-- With no action pending nothing is refused. -/
theorem idle_ne_refused {s : State} {r : Refusal} : idle s ≠ .refused r := by
  unfold idle
  split
  · exact clockEdge_refused
  · exact nofun

end Sys2Proof.Machine

namespace Sys2Proof
open Machine

/-- Settles O4, by the cases of a step and of a clock edge. -/
theorem stepKeepsInvariant : Obligations.StepKeepsInvariant := fun _ _ => inv_step

/-- Settles O3. -/
theorem resetMeetsInvariant : Obligations.ResetMeetsInvariant := inv_reset

/-- Settles O41. -/
theorem configurationIsFixed : Obligations.ConfigurationIsFixed := fun _ _ => cfg_step

/-- Settles O42. -/
theorem writersOfReqAndResp : Obligations.WritersOfReqAndResp :=
  ⟨fun _ _ _ _ hh h => ⟨req_step_cons hh h, resp_step_cons hh h⟩, fun _ _ => req_resp_step_nil⟩

/-- Settles O43: with no action pending nothing is refused, and otherwise the step is the first action. -/
theorem refusalsAreOutsideTheTable : Obligations.RefusalsAreOutsideTheTable := by
  intro s r h
  cases hh : s.host with
  | nil => exact absurd (step_nil hh ▸ h) idle_ne_refused
  | cons x rest =>
    rw [step_cons hh] at h
    exact ⟨x, rest, rfl, runAction_refused (s := { s with host := rest }) h⟩

end Sys2Proof
end

section
/-! PROOFS. The step equations of the host's actions and of the port's edges, reset, the placed word, and the port as a
transaction (10_state R22, R29, R30, R32). -/

namespace Sys2Proof.Machine

/-! ## One equation per host action -/

/-- A pending request that may be issued is the transaction. -/
theorem step_issue {s : State} {rest : List HostAction} (hh : s.host = .issue :: rest) (hready : s.port.reqReady = true) :
    step s = transaction { s with host := rest } := by
  rw [step_cons hh]
  exact if_pos hready

/-- A transaction whose command word decodes is the operation's meaning. -/
theorem transaction_of_decode_ok {s : State} {w : CmdWord} {i : Instr} (hw : s.req.cmd = some w) (hd : decode w = .ok i) :
    transaction s = exec i s := by
  simp [transaction, hw, hd]

/-- A transaction whose command word selects no operation raises IllegalOperation (30_encoding R53). -/
theorem transaction_of_decode_error {s : State} {w : CmdWord} {e : DecodeError} (hw : s.req.cmd = some w)
    (hd : decode w = .error e) : transaction s = .next (raiseError .illegalOperation s) := by
  simp [transaction, hw, hd]

/-- A host read of a field that holds a value. -/
theorem hostRead_of_value {s : State} {f : RespField} {v : Nat} (h : s.respValue f = some v) :
    hostRead f s = .next { s with seen := (f, v) :: s.seen } := by
  simp [hostRead, h]

/-- A host read of a field that holds none. -/
theorem hostRead_of_none {s : State} {f : RespField} (h : s.respValue f = none) : hostRead f s = .fault (.noValue f) := by
  simp [hostRead, h]

/-! ## One equation per phase of the port -/

section
variable {s : State} {p : Pins} (hr : p.rst = false)
include hr

/-- A ready port accepts the request the host drives, if it drives one. -/
theorem clockEdge_ready (hp : s.port = .ready) :
    clockEdge p s =
      .next { s with edges := s.edges + 1, port := if p.reqValid then .busy s.req 0 else .ready } := by
  cases hv : p.reqValid <;> simp [clockEdge, hr, hp, hv]

/-- An edge that does not answer counts for the latency. -/
theorem clockEdge_busy_waits {q : Req} {age : Nat} (hp : s.port = .busy q age)
    (h : ¬(p.answer = true ∧ s.cfg.responseLatency ≤ age + 1)) :
    clockEdge p s = .next { s with edges := s.edges + 1, port := .busy q (age + 1) } := by
  simp [clockEdge, hr, hp, h]

/-- An edge that answers runs the transaction on the sampled request. -/
theorem clockEdge_busy_answers {q : Req} {age : Nat} (hp : s.port = .busy q age) (ha : p.answer = true)
    (hl : s.cfg.responseLatency ≤ age + 1) : clockEdge p s = answerSampled q { s with edges := s.edges + 1 } := by
  simp [clockEdge, hr, hp, ha, hl]

/-- An answered port is ready again once the host takes the response. -/
theorem clockEdge_answered (hp : s.port = .answered) :
    clockEdge p s =
      .next { s with edges := s.edges + 1, port := if p.rspReady then .ready else .answered } := by
  cases hv : p.rspReady <;> simp [clockEdge, hr, hp, hv]

end

/-- While a request is outstanding `req_valid` makes no difference. -/
theorem clockEdge_ignores_reqValid {s : State} {p : Pins} (b : Bool) (h : s.port.reqReady = false) :
    clockEdge { p with reqValid := b } s = clockEdge p s := by
  unfold clockEdge
  cases hp : s.port with
  | ready => simp [hp] at h
  | busy q age => rfl
  | answered => rfl

/-! ## Actions between acceptance and answer -/

/-- A host action that neither resets nor answers nor stops the run: a clock edge that does not answer, or a write inside its
buffer. -/
def HostAction.Between (c : Config) (x : HostAction) : Prop :=
  (∃ p : Pins, x = .clock p ∧ p.rst = false ∧ p.answer = false) ∨ ∃ f v, x = .write f v ∧ f.inBuffer c = true

/-- Such an action leaves the sampled request waiting; an edge counts for the latency. -/
theorem step_between {s : State} {q : Req} {age : Nat} {x : HostAction} {rest : List HostAction}
    (hh : s.host = x :: rest) (hp : s.port = .busy q age) (hx : x.Between s.cfg) :
    ∃ t, step s = .next t ∧ t.cfg = s.cfg ∧ t.host = rest ∧ t.port = .busy q (age + clockEdges [x]) := by
  rw [step_cons hh]
  rcases hx with ⟨p, rfl, hr, ha⟩ | ⟨f, v, rfl, hf⟩
  · exact ⟨_, clockEdge_busy_waits (s := { s with host := rest }) hr hp (by simp [ha]), rfl, rfl, rfl⟩
  · exact ⟨_, hostWrite_of_inBuffer (s := { s with host := rest }) v hf, rfl, rfl, hp⟩

/-- The pending answering edge of a waiting request whose latency has passed leaves in RESP what the atomic transaction on the
sampled request gives, with the parameters of any state `s₀` it was accepted in. -/
theorem step_answer {s₀ s u : State} {q : Req} {age : Nat} {p : Pins} {rest : List HostAction} (hh : s.host = .clock p :: rest)
    (hp : s.port = .busy q age) (hr : p.rst = false) (ha : p.answer = true) (hl : s.cfg.responseLatency ≤ age + 1)
    (hc : s.cfg = s₀.cfg) (hu : transaction { s₀ with req := q } = .next u) :
    step s = .next { s with host := rest, edges := s.edges + 1, resp := u.resp, port := .answered } := by
  rw [step_cons hh]
  exact (clockEdge_busy_answers (s := { s with host := rest }) hr hp ha hl).trans (answerSampled_of_transaction hc hu)

/-- A waiting request followed by such actions and then an answering edge, late enough, is answered with what the atomic
transaction on the sampled request gives. -/
theorem run_between_answer {s₀ s u : State} {q : Req} {age : Nat} {between : List HostAction} {p : Pins}
    (hr : p.rst = false) (ha : p.answer = true) (hu : transaction { s₀ with req := q } = .next u)
    (hc : s.cfg = s₀.cfg) (hp : s.port = .busy q age) (hh : s.host = between ++ [.clock p])
    (hbetween : ∀ x ∈ between, x.Between s₀.cfg) (hl : s₀.cfg.responseLatency ≤ age + clockEdges between + 1) :
    ∃ t : State, Host.Core.run Sys2Proof.core (between.length + 1) s = .next t ∧ t.resp = u.resp ∧ t.port = .answered ∧
      t.host = [] := by
  induction between generalizing s age with
  | nil => exact ⟨_, run_next (step_answer hh hp hr ha (hc ▸ hl) hc hu), rfl, rfl, rfl⟩
  | cons x rest ih =>
    have hx : x.Between s.cfg := hc ▸ hbetween x List.mem_cons_self
    obtain ⟨t, hstep, htc, hth, htp⟩ := step_between hh hp hx
    have hcount : clockEdges (x :: rest) = clockEdges [x] + clockEdges rest := List.countP_append (l₁ := [x])
    obtain ⟨v, hrun, hv⟩ := ih (htc.trans hc) htp hth (fun y hy => hbetween y (List.mem_cons_of_mem x hy)) (by omega)
    exact ⟨v, (run_next hstep).trans hrun, hv⟩

/-- The pending accepting edge samples REQ. -/
theorem step_accept {s : State} {p : Pins} {rest : List HostAction} (hh : s.host = .clock p :: rest) (hp : s.port = .ready)
    (hr : p.rst = false) (hv : p.reqValid = true) :
    step s = .next { s with host := rest, edges := s.edges + 1, port := .busy s.req 0 } := by
  rw [step_cons hh]
  exact (clockEdge_ready (s := { s with host := rest }) hr hp).trans (by rw [if_pos hv])

end Sys2Proof.Machine

namespace Sys2Proof
open Machine

/-- A word that decodes is the encoding of what it decodes to: OP and DIG are the table's, RSV is zero (30_encoding R53). -/
theorem encode_of_decode_ok {w : CmdWord} {i : Instr} (h : decode w = .ok i) : encode i = w := by
  obtain ⟨hrsv, htab, hdig⟩ := decode_eq_ok.mp h
  obtain ⟨hop, hdigits, -, -⟩ := opTable_eq_some htab
  have hdf : i.digits = digField w := by
    rw [hdigits]
    split
    · rfl
    · omega
  apply BitVec.eq_of_toNat_eq
  rw [encode, BitVec.toNat_ofNat, hop, hdf]
  simp only [rsvField, digField, opField] at *
  omega

/-- What a row's word decodes to, as a command word of its own. -/
theorem decode_of_decodeTableWord {nbits w : Nat} {i : Instr} (h : decodeTableWord nbits w = some i) :
    decode (BitVec.ofNat 16 (w % 2 ^ nbits)) = .ok i := by
  unfold decodeTableWord at h
  cases hd : decode (BitVec.ofNat 16 (w % 2 ^ nbits)) with
  | error e => rw [hd] at h; cases h
  | ok j => rw [hd] at h; cases h; rfl

/-- Settles O54: the accepting edge samples REQ, and `run_between_answer` is the rest of the run. -/
theorem portRealisesTransaction : Obligations.PortRealisesTransaction := by
  intro s u accept answer between hp hr hv har haa hbetween hl hh hu
  obtain ⟨t, hrun, hresp, hport, hhost⟩ :=
    run_between_answer (s₀ := s) (s := { s with host := between ++ [.clock answer], edges := s.edges + 1, port := .busy s.req 0 })
      har haa hu rfl rfl rfl hbetween (by omega)
  exact ⟨t, (run_next (step_accept hh hp hr hv)).trans hrun, hresp, hport ▸ rfl, hhost⟩

/-- Settles O9. -/
theorem stepRunsDecodedInstruction : Obligations.StepRunsDecodedInstruction := by
  intro s rest w i hh hready hw hd
  rw [step_issue hh hready]
  exact transaction_of_decode_ok hw hd

/-- Settles O10: the state with the word placed is ready, its next action is the request, and its command word is the encoding. -/
theorem placedWordRunsNext : Obligations.PlacedWordRunsNext := by
  intro s w i h
  have hd := decode_of_decodeTableWord h
  refine ⟨(s.withFetchWord 16 w).req, congrArg some (encode_of_decode_ok hd).symm, ?_⟩
  exact stepRunsDecodedInstruction (s.withFetchWord 16 w) s.host _ i rfl rfl rfl hd

/-- Settles O44. -/
theorem readOfNoValueFaults : Obligations.ReadOfNoValueFaults := by
  intro s f rest hh
  rw [step_cons hh]
  exact ⟨fun h => hostRead_of_none h, fun v h => hostRead_of_value h⟩

/-- Settles O50. -/
theorem portAcceptsOnlyWhenReady : Obligations.PortAcceptsOnlyWhenReady := by
  intro s p hr
  refine ⟨fun hp hv => ⟨_, clockEdge_ready hr hp, ?_⟩, fun hp hv => ⟨_, clockEdge_ready hr hp, ?_⟩,
    fun hp b => clockEdge_ignores_reqValid b hp⟩
  · simp [hv]
  · simp [hv]

/-- Settles O51: before the latency no edge answers. -/
theorem portAnswersNoEarlierThanLatency : Obligations.PortAnswersNoEarlierThanLatency := by
  intro s p q age hp hr hl
  exact ⟨_, clockEdge_busy_waits hr hp (by omega), rfl, rfl, rfl⟩

/-- Settles O52. -/
theorem portTakesResponse : Obligations.PortTakesResponse := by
  intro s p hvalid hr
  have hp : s.port = .answered := by
    cases hport : s.port with
    | answered => rfl
    | ready => simp [hport] at hvalid
    | busy q age => simp [hport] at hvalid
  exact ⟨_, clockEdge_answered hr hp, rfl, rfl, by cases p.rspReady <;> rfl, by cases p.rspReady <;> rfl⟩

/-- Settles O53: without a value the pin shows the free value cut to the field's width. -/
theorem pinsShowResponse : Obligations.PinsShowResponse := by
  intro s f
  constructor
  · intro v hv
    simp [State.respPin, hv]
  · intro hv
    have hlt := Nat.mod_lt (Config.undrivenPin s.edges f).toNat (Nat.two_pow_pos (f.width s.cfg))
    simpa [State.respPin, hv] using hlt

end Sys2Proof
end

section
/-! PROOFS. What a request leaves in RESP, which fields it depends on, and which unwritten fields make it fault (10_state R21,
R28, R33; 30_encoding R57, R58). -/

namespace Sys2Proof.Machine

/-! ## The fields a completed operation writes -/

/-- The bytes OB holds after `Resp.bytes`. -/
theorem isSome_read_bytes {bs : List Byte} {n : Nat} (hn : bs.length = n) (j : Nat) :
    ((Resp.bytes bs).ob.read j).isSome ↔ j < n := by
  rw [← hn, ← isSome_getElem?_iff, (bytes_isBytes bs).2.2.2.1 j]

/-- A completed operation writes exactly the fields of its row (30_encoding R58). -/
theorem fieldsWritten_of_ok {c : Config} {q : Req} {i : Instr} {r : Resp} (h : respOf c q i = .ok r) : FieldsWritten q r i := by
  rcases respOf_ok_cases h with ⟨bs, rfl, hbytes⟩ | ⟨v, rfl, hnumber⟩ | ⟨b, k, rfl, rfl, hk, hl, -⟩
  · obtain ⟨-, hr, -, -, hframe⟩ := bytes_isBytes bs
    have hlen {n : Nat} (hn : bs.length = n) : (Resp.bytes bs).obLen = some n := congrArg some hn
    rcases hbytes with ⟨rfl, hn⟩ | ⟨rfl, hn⟩ | ⟨d, rfl, hn, -⟩ | ⟨rfl, -, k, n, hclen, hplen, hn⟩
    · exact ⟨hr, hframe, hlen hn, isSome_read_bytes hn⟩
    · exact ⟨hr, hframe, hlen hn, isSome_read_bytes hn⟩
    · exact ⟨hr, hframe, hlen hn, isSome_read_bytes hn⟩
    · exact ⟨hr, hframe, k, n, hclen, hplen, hlen hn, isSome_read_bytes hn⟩
  · obtain ⟨-, hr, hbytes, hframe⟩ := number_isNumber v
    have hbit : v = 0 ∨ v = 1 → (Resp.number v).r = some 0 ∨ (Resp.number v).r = some 1 :=
      Or.imp (congrArg some) (congrArg some)
    rcases hnumber with rfl | rfl | ⟨d, rfl⟩ | ⟨rfl | rfl | rfl, hv⟩
    · exact ⟨rfl, hbytes, hframe⟩
    · exact ⟨rfl, hbytes, hframe⟩
    · exact ⟨rfl, hbytes, hframe⟩
    · exact ⟨hbit hv, hbytes, hframe⟩
    · exact ⟨hbit hv, hbytes, hframe⟩
    · exact ⟨hbit hv, hbytes, hframe⟩
  · obtain ⟨-, hr, hbytes, -⟩ := frame_isFrame hk hl
    refine ⟨hr, hbytes, rfl, rfl, rfl, ?_, ?_, b.length - 5 - k, rfl, fun j => ?_⟩
    · exact hk.imp (congrArg fun k => some (BitVec.ofNat 2 k)) (congrArg fun k => some (BitVec.ofNat 2 k))
    · rcases hk with rfl | rfl <;> simp [Resp.frame]
    · rw [isSome_read_frame, length_frame_payload]

/-! ## Faults of a request -/

/-- An operation that stops on an unwritten field is that fault. -/
theorem exec_of_faulted {i : Instr} {s : State} {f : Fault} (h : respOf s.cfg s.req i = .error (.faulted f)) :
    exec i s = .fault f := by
  rw [exec_eq_finish, h]
  rfl

/-- MemRead over a byte without a value faults on some such byte of its run. -/
theorem memRead_of_unwritten {f : Nat → ReqField} {m : Memory} {n : Nat} (h : ∃ j, j < n ∧ m.read j = none) :
    ∃ j, j < n ∧ m.read j = none ∧ memRead f m 0 n = .error (.faulted (.unwrittenReqField (f j))) := by
  cases hm : memRead f m 0 n with
  | ok bs =>
    obtain ⟨j, hj, hnone⟩ := h
    obtain ⟨hlen, hread⟩ := memRead_eq_ok.mp hm
    have hb := hread j hj
    rw [Nat.zero_add, hnone, eq_comm, List.getElem?_eq_none_iff] at hb
    omega
  | error e =>
    obtain ⟨j, hj, hnone, rfl⟩ := memRead_error hm
    rw [Nat.zero_add] at hnone
    exact ⟨j, hj, hnone, by rw [Nat.zero_add]⟩

/-! ### The input buffer -/

/-- Without IB_LEN no operation on the input buffer gets further. -/
theorem operandLen_none {c : Config} {q : Req} (h : q.ibLen = none) :
    operandLen c q = .error (.faulted (.unwrittenReqField .ibLen)) := by
  rw [operandLen_eq, h]

/-- An input length that fits the buffer. -/
theorem operandLen_some {c : Config} {q : Req} {n : Nat} (h : q.ibLen = some n) (hn : n ≤ c.maxFrameBytes) :
    operandLen c q = .ok n := by
  rw [operandLen_eq, h]
  exact if_pos hn

/-- An operation on the input buffer, with the length at which it reads IB. -/
def ReadsInput (i : Instr) (n : Nat) : Prop :=
  (i = .decFreq ∧ n = 5) ∨ (i = .decLevel ∧ n = 2) ∨ (∃ d, d ≠ 0 ∧ i = .decOffset d ∧ n = d / 2 + 1) ∨ (i = .parse ∧ 6 ≤ n)

/-- A fault of reading the input is the operation's: before it, the operation checks only what `ReadsInput` says. -/
theorem respOf_of_input_faulted {c : Config} {q : Req} {i : Instr} {n : Nat} {f : Fault} (hi : ReadsInput i n)
    (h : operandLen c q = .error (.faulted f) ∨ (operandLen c q = .ok n ∧ memRead .ib q.ib 0 n = .error (.faulted f))) :
    respOf c q i = .error (.faulted f) := by
  have hbytes : operandBytes c q n = .error (.faulted f) := by
    rcases h with hlen | ⟨hlen, hread⟩
    · rw [operandBytes, hlen, error_bind]
    · rw [operandBytes, hlen, ok_bind, check_true rfl, ok_bind, hread]
  rcases hi with ⟨rfl, rfl⟩ | ⟨rfl, rfl⟩ | ⟨d, hd, rfl, rfl⟩ | ⟨rfl, hn⟩
  · rw [respOf, respDecFreq, freqBytes, hbytes, error_bind]
  · rw [respOf, respDecLevel, levelBytes, hbytes, error_bind]
  · rw [respOf, respDecOffset, check_true hd, ok_bind, offsetLen, hbytes, error_bind]
  · rcases h with hlen | ⟨hlen, hread⟩
    · rw [respOf, respParse, hlen, error_bind]
    · rw [respOf, respParse, hlen, ok_bind, check_true (show minFrameBytes ≤ n from hn), ok_bind, hread, error_bind]

/-! ### The frame operand -/

/-- An operation on the frame operand. -/
def ReadsFrame (i : Instr) : Prop := i = .toBytes ∨ i = .isAck ∨ i = .isNak ∨ i = .isEcho

/-- WF_F fails only on lengths that were written. -/
theorem frameOperandBad_of_raised {s : State} {e : ErrorKind} (h : operandFrame s.cfg s.req = .error (.raised e)) :
    FrameOperandBad s := by
  cases hk : s.req.fClen with
  | none => simp [operandFrame, hk, need_none] at h
  | some k =>
    cases hn : s.req.fPlen with
    | none => simp [operandFrame, hk, hn, need_some, need_none] at h
    | some n =>
      rw [operandFrame_some hk hn] at h
      split at h
      · cases h
      · next hbad => exact ⟨k, n, hk, hn, hbad⟩

/-- An error after a field read comes from what follows it. -/
theorem need_bind_raised {α β : Type} {f : ReqField} {x : Option α} {k : α → Except Halt β} {e : ErrorKind}
    (h : (need f x >>= k) = .error (.raised e)) : ∃ a, k a = .error (.raised e) := by
  obtain hneed | ⟨a, -, hk⟩ := bind_raised h
  · exact absurd hneed need_ne_raised
  · exact ⟨a, hk⟩

/-- The only error of IS_ACK and IS_NAK is that of WF_F. -/
theorem respIsCommand_raised {s : State} {code : Byte} {e : ErrorKind}
    (h : respIsCommand s.cfg s.req code = .error (.raised e)) : FrameOperandBad s := by
  obtain hframe | ⟨⟨k, n⟩, -, h⟩ := bind_raised h
  · exact frameOperandBad_of_raised hframe
  · obtain ⟨c0, h⟩ := need_bind_raised h
    cases h

/-- The only error of IS_ECHO is that of WF_F. -/
theorem respIsEcho_raised {s : State} {e : ErrorKind} (h : respIsEcho s.cfg s.req = .error (.raised e)) :
    FrameOperandBad s := by
  obtain hframe | ⟨⟨k, n⟩, -, h⟩ := bind_raised h
  · exact frameOperandBad_of_raised hframe
  · obtain ⟨src, h⟩ := need_bind_raised h
    obtain ⟨dest, h⟩ := need_bind_raised h
    cases h

/-- The only error of TOBYTES is that of WF_F. -/
theorem respToBytes_raised {s : State} {e : ErrorKind} (h : respToBytes s.cfg s.req = .error (.raised e)) :
    FrameOperandBad s := by
  obtain hframe | ⟨⟨k, n⟩, -, h⟩ := bind_raised h
  · exact frameOperandBad_of_raised hframe
  obtain hcmd | ⟨cmd, -, h⟩ := bind_raised h
  · exact absurd hcmd operandCmd_ne_raised
  obtain hread | ⟨payload, -, h⟩ := bind_raised h
  · exact absurd hread memRead_ne_raised
  obtain ⟨dest, h⟩ := need_bind_raised h
  obtain ⟨src, h⟩ := need_bind_raised h
  cases h

/-- The only error of a frame operation is that of WF_F (60_exceptions R88). -/
theorem frameOperation_raised {s : State} {i : Instr} {e : ErrorKind} (hi : ReadsFrame i)
    (h : respOf s.cfg s.req i = .error (.raised e)) : FrameOperandBad s := by
  rcases hi with rfl | rfl | rfl | rfl
  · exact respToBytes_raised h
  · exact respIsCommand_raised h
  · exact respIsCommand_raised h
  · exact respIsEcho_raised h

/-- An operand that holds a frame has a value in every field TOBYTES reads. -/
theorem written_of_holdsFrame {c : Config} {q : Req} {dest src : Byte} {cmd payload : List Byte}
    (h : q.HoldsFrame dest src cmd payload) : q.Written c .toBytes := by
  obtain ⟨hd, hs, hlen, hk, h0, h1, hn, hp⟩ := h
  refine ⟨by simp [hd], by simp [hs], by simp [hk], ?_, fun h2 => ?_, by simp [hn], fun n hn' j hj _ => ?_⟩
  · have hpos : 0 < cmd.length := by omega
    simp [h0, hpos]
  · have htwo : cmd.length = 2 := by
      rcases hlen with hone | htwo
      · simp [hk, hone] at h2
      · exact htwo
    simp [h1 htwo, htwo]
  · cases hn.symm.trans hn'
    simp [hp j hj, hj]

/-- A frame operation completes only where every field it reads was written (30_encoding R57). -/
theorem frameOperation_ok_written {c : Config} {q : Req} {i : Instr} {r : Resp} (hi : ReadsFrame i)
    (h : respOf c q i = .ok r) : q.Written c i := by
  rcases hi with rfl | rfl | rfl | rfl
  · obtain ⟨dest, src, cmd, payload, hholds, -⟩ := respToBytes_eq_ok.mp h
    exact written_of_holdsFrame hholds
  · obtain ⟨k, n, c0, hk, hn, h0, -⟩ := respIsCommand_eq_ok.mp h
    simp [Req.Written, hk, hn, h0]
  · obtain ⟨k, n, c0, hk, hn, h0, -⟩ := respIsCommand_eq_ok.mp h
    simp [Req.Written, hk, hn, h0]
  · obtain ⟨k, n, src, dest, hk, hn, hs, hd, -⟩ := respIsEcho_eq_ok.mp h
    simp [Req.Written, hk, hn, hs, hd]

/-- A frame operation on an operand that is not all written, and whose lengths do not fail WF_F, faults on a field without a
value: it cannot complete, and it has no other error. -/
theorem frameOperation_faults {s : State} {i : Instr} (hi : ReadsFrame i) (hbad : ¬FrameOperandBad s)
    (hw : ¬s.req.Written s.cfg i) : ∃ f, s.req.hasValue f = false ∧ exec i s = .fault (.unwrittenReqField f) := by
  rcases hx : respOf s.cfg s.req i with (e | f) | r
  · exact absurd (frameOperation_raised hi hx) hbad
  · obtain ⟨g, rfl, hg, -⟩ := respOf_fault_cases hx
    exact ⟨g, hg, exec_of_faulted hx⟩
  · exact absurd (frameOperation_ok_written hi hx) hw

/-- Lengths one of which was never written do not fail WF_F: the operation stops before. -/
theorem not_frameOperandBad_of_unwritten {s : State} (h : s.req.fClen = none ∨ s.req.fPlen = none) : ¬FrameOperandBad s := by
  rintro ⟨k, n, hk, hn, -⟩
  rcases h with h | h
  · cases h.symm.trans hk
  · cases h.symm.trans hn

/-- Lengths that meet WF_F do not fail it. -/
theorem not_frameOperandBad_of_good {s : State} {k : BitVec 2} (h : FrameOperandGood s k) : ¬FrameOperandBad s := by
  rintro ⟨k', n', hk', hn', hbad⟩
  obtain ⟨n, hk, hn, hclen, hfit⟩ := h
  cases hk.symm.trans hk'
  cases hn.symm.trans hn'
  exact hbad ⟨hclen, hfit⟩

/-- A frame operation reads both lengths. -/
theorem not_written_of_unwritten_length {c : Config} {q : Req} {i : Instr} (hi : ReadsFrame i)
    (h : q.fClen = none ∨ q.fPlen = none) : ¬q.Written c i := by
  rcases hi with rfl | rfl | rfl | rfl <;> rcases h with h | h <;> simp [Req.Written, h]

/-- IS_ACK and IS_NAK read F_CMD0 once WF_F holds. -/
theorem respIsCommand_unwritten {s : State} {k : BitVec 2} (code : Byte) (h : FrameOperandGood s k) (h0 : s.req.fCmd0 = none) :
    respIsCommand s.cfg s.req code = .error (.faulted (.unwrittenReqField .fCmd0)) := by
  obtain ⟨n, hk, hn, hwf⟩ := h
  rw [respIsCommand, operandFrame_some hk hn, if_pos hwf, ok_bind, h0]
  rfl

/-- What TOBYTES reads once WF_F holds; the bytes below F_PLEN are inside the buffer then. -/
theorem not_written_toBytes {s : State} {k : BitVec 2} (hgood : FrameOperandGood s k)
    (h : s.req.fCmd0 = none ∨ s.req.fSrc = none ∨ s.req.fDest = none ∨ (k = 2 ∧ s.req.fCmd1 = none) ∨
      ∃ n j, s.req.fPlen = some n ∧ j < n ∧ s.req.fPayload.read j = none) : ¬s.req.Written s.cfg .toBytes := by
  obtain ⟨n, hk, hn, hclen, hfit⟩ := hgood
  rintro ⟨hd, hs, -, h0, h1, -, hp⟩
  rcases h with h | h | h | ⟨rfl, h⟩ | ⟨n', j, hn', hj, h⟩
  · simp [h] at h0
  · simp [h] at hs
  · simp [h] at hd
  · simp [h, hk] at h1
  · cases hn.symm.trans hn'
    have hsome := hp n hn j hj (by rw [payloadBytes]; omega)
    simp [h] at hsome

end Sys2Proof.Machine

namespace Sys2Proof
open Machine

/-- Settles O31: a completed operation leaves its row's fields, an error its code alone, and so does a word that selects no
operation. -/
theorem responseReplacedWhole : Obligations.ResponseReplacedWhole := by
  constructor
  · intro s t i _ h
    obtain ⟨-, r, hr, hok | ⟨e, -, rfl⟩⟩ := exec_next_record h
    · exact ⟨r, hr, fun _ => fieldsWritten_of_ok hok, fun hne => absurd (respOf_ok_status hok) hne⟩
    · exact ⟨_, hr, fun hok => absurd hok (code_ne_ok e), fun _ => only_isBare e.code⟩
  · intro s t w e hw hd h
    rw [transaction_of_decode_error hw hd] at h
    cases h
    exact ⟨_, rfl, only_isBare _⟩

/-- Settles O35: A is the first field the encoders read. -/
theorem unwrittenNumberFaults : Obligations.UnwrittenNumberFaults := by
  intro s ha
  refine ⟨exec_of_faulted ?_, exec_of_faulted ?_, fun d hd => exec_of_faulted ?_⟩
  · simp [respOf, respEncFreq, operandUnsigned, ha, need_none]
  · simp [respOf, respEncLevel, operandUnsigned, ha, need_none]
  · simp [respOf, respEncOffset, operandSigned, ha, need_none, check_true hd]

/-- Settles O36. -/
theorem unwrittenInputFaults : Obligations.UnwrittenInputFaults := by
  intro s i n hi
  constructor
  · intro hlen
    exact exec_of_faulted (respOf_of_input_faulted hi (.inl (operandLen_none hlen)))
  · intro hlen hfit hbyte
    obtain ⟨j, hj, hnone, hread⟩ := memRead_of_unwritten (f := .ib) hbyte
    exact ⟨j, hj, hnone, exec_of_faulted (respOf_of_input_faulted hi (.inr ⟨operandLen_some hlen hfit, hread⟩))⟩

/-- Settles O37: in each clause WF_F does not fail and some field the operation reads was never written. -/
theorem unwrittenFrameFaults : Obligations.UnwrittenFrameFaults := by
  intro s
  refine ⟨fun i hi h => ?_, fun k hgood => ⟨fun h0 => ⟨?_, ?_⟩, fun h => ?_, fun h => ?_⟩⟩
  · exact frameOperation_faults hi (not_frameOperandBad_of_unwritten h) (not_written_of_unwritten_length hi h)
  · exact exec_of_faulted (respIsCommand_unwritten ackCode hgood h0)
  · exact exec_of_faulted (respIsCommand_unwritten nakCode hgood h0)
  · refine frameOperation_faults (.inr (.inr (.inr rfl))) (not_frameOperandBad_of_good hgood) ?_
    rcases h with h | h <;> simp [Req.Written, h]
  · exact frameOperation_faults (.inl rfl) (not_frameOperandBad_of_good hgood) (not_written_toBytes hgood h)

/-- Settles O38: what an operation answers is a function of the parameters and the fields it reads. -/
theorem dontCareFieldsDoNotMatter : Obligations.DontCareFieldsDoNotMatter := by
  intro i s s' t hc hagree h
  obtain ⟨r, hr, rfl⟩ := exec_eq_next.mp h
  rw [← respOf_congr s.cfg hagree, ← hc] at hr
  exact exec_eq_next.mpr ⟨r, hr, rfl⟩

/-- Settles O39. -/
theorem responseDependsOnRequestAlone : Obligations.ResponseDependsOnRequestAlone :=
  fun _ _ hc hq => ⟨fun _ => transaction_congr hc hq, fun _ => transaction_fault_congr hc hq⟩

/-- No field of REQ holds a value after reset (10_state R32). -/
theorem unwritten_hasValue (f : ReqField) : Req.unwritten.hasValue f = false := by cases f <;> rfl

/-- On a REQ without values every operation faults, but for the two whose digit count is already wrong. -/
theorem exec_faults_of_unwritten {s : State} (hq : s.req = Req.unwritten) (i : Instr) (he : i ≠ .encOffset 0)
    (hd : i ≠ .decOffset 0) : ∃ f, exec i s = .fault (.unwrittenReqField f) := by
  obtain ⟨hencFreq, hencLevel, hencOffset⟩ := unwrittenNumberFaults s (by rw [hq]; rfl)
  have hinput {i : Instr} {n : Nat} (hi : ReadsInput i n) : exec i s = .fault (.unwrittenReqField .ibLen) :=
    (unwrittenInputFaults s i n hi).1 (by rw [hq]; rfl)
  have hframe {i : Instr} (hi : ReadsFrame i) : ∃ f, exec i s = .fault (.unwrittenReqField f) :=
    ((unwrittenFrameFaults s).1 i hi (.inl (by rw [hq]; rfl))).imp fun _ => And.right
  cases i with
  | encFreq => exact ⟨_, hencFreq⟩
  | encLevel => exact ⟨_, hencLevel⟩
  | encOffset d => exact ⟨_, hencOffset d fun h => he (h ▸ rfl)⟩
  | decFreq => exact ⟨_, hinput (.inl ⟨rfl, rfl⟩)⟩
  | decLevel => exact ⟨_, hinput (.inr (.inl ⟨rfl, rfl⟩))⟩
  | decOffset d => exact ⟨_, hinput (.inr (.inr (.inl ⟨d, fun h => hd (h ▸ rfl), rfl, rfl⟩)))⟩
  | parse => exact ⟨_, hinput (.inr (.inr (.inr ⟨rfl, le_refl 6⟩)))⟩
  | toBytes => exact hframe (.inl rfl)
  | isAck => exact hframe (.inr (.inl rfl))
  | isNak => exact hframe (.inr (.inr (.inl rfl)))
  | isEcho => exact hframe (.inr (.inr (.inr rfl)))

/-- Settles O1: reset leaves RESP = NONE and REQ unwritten, and there every operation and the decode fault. -/
theorem resetLeavesNoValue : Obligations.ResetLeavesNoValue :=
  ⟨fun _ => rfl, unwritten_hasValue, rfl, rfl, fun s => ⟨resetBlock s, rfl, rfl, fun _ => rfl, unwritten_hasValue, rfl, rfl,
    exec_faults_of_unwritten rfl, rfl⟩⟩

end Sys2Proof
end

section
/-! PROOFS. A request repeated, and a host read: neither leaves anything behind that a later request sees (20_memory R43). -/

namespace Sys2Proof.Machine

/-- An answered transaction issued again changes nothing, whatever the host has pending (10_state R28, 20_memory R43). -/
theorem transaction_again {s t : State} (h : transaction s = .next t) (rest : List HostAction) :
    transaction { t with host := rest } = .next { t with host := rest } := by
  obtain ⟨r, rfl⟩ := transaction_next h
  exact transaction_congr (s := s) rfl rfl h

/-- Everything a pending request that is answered does. -/
theorem step_issue_next {s t : State} {rest : List HostAction} (hh : s.host = .issue :: rest) (h : step s = .next t) :
    s.port.reqReady = true ∧ transaction { s with host := rest } = .next t ∧
      ∃ r, t = { s with host := rest, resp := some r } := by
  rw [step_cons hh] at h
  cases hready : s.port.reqReady with
  | true =>
    replace h : transaction { s with host := rest } = .next t := (if_pos hready).symm.trans h
    exact ⟨rfl, h, transaction_next h⟩
  | false => simp [runAction, issueRequest, hready] at h

/-- Everything a pending host read that goes on does (10_state R22). -/
theorem step_read_next {s t : State} {f : RespField} {rest : List HostAction} (hh : s.host = .read f :: rest)
    (h : step s = .next t) : ∃ v, s.respValue f = some v ∧ t = { s with host := rest, seen := (f, v) :: s.seen } := by
  obtain ⟨hnone, hsome⟩ := readOfNoValueFaults s f rest hh
  cases hv : s.respValue f with
  | none => cases (hnone hv).symm.trans h
  | some v => cases (hsome v hv).symm.trans h; exact ⟨v, rfl, rfl⟩

end Sys2Proof.Machine

namespace Sys2Proof
open Machine

/-- Settles O40: an answered request leaves the port ready and CFG and REQ as they were, and the answer depends on those alone;
a read only records the value it read. -/
theorem repeatedRequestAnswersAlike : Obligations.RepeatedRequestAnswersAlike := by
  constructor
  · intro s t rest hh h
    obtain ⟨hready, ht, r, rfl⟩ := step_issue_next hh h
    have hsecond := step_issue (s := { s with host := .issue :: rest, resp := some r }) rfl hready
    exact ⟨_, hsecond.trans (transaction_again ht rest), rfl, rfl⟩
  · intro s t f rest hh h
    obtain ⟨v, -, rfl⟩ := step_read_next hh h
    exact ⟨rfl, rfl, rfl, rfl⟩

end Sys2Proof
end

section
/-! PROOFS. The command word: encoding and decoding are inverse, and every word either selects an operation or raises
IllegalOperation (30_encoding R51–R56, R62). -/

namespace Sys2Proof
open Machine

/-! ## The fields of an encoded instruction -/

theorem Instr.opCode_lt (i : Instr) : i.opCode < 16 := by cases i <;> simp [Instr.opCode]

/-- An instruction is well formed exactly when its digit count fits DIG (30_encoding R51). -/
theorem Instr.wf_iff (i : Instr) : i.wf = true ↔ i.digits < 16 := by cases i <;> simp [Instr.wf, Instr.digits]

/-- The command word as a number: OP and DIG do not overlap, and nothing is cut off. -/
theorem toNat_encode {i : Instr} (h : i.wf = true) : (encode i).toNat = 16 * i.digits + i.opCode := by
  have hop := i.opCode_lt
  have hdig := i.wf_iff.mp h
  rw [encode, BitVec.toNat_ofNat]
  exact Nat.mod_eq_of_lt (by omega)

theorem rsvField_encode {i : Instr} (h : i.wf = true) : rsvField (encode i) = 0 := by
  have hop := i.opCode_lt
  have hdig := i.wf_iff.mp h
  rw [rsvField, toNat_encode h]
  omega

theorem digField_encode {i : Instr} (h : i.wf = true) : digField (encode i) = i.digits := by
  have hop := i.opCode_lt
  have hdig := i.wf_iff.mp h
  rw [digField, toNat_encode h]
  omega

theorem opField_encode {i : Instr} (h : i.wf = true) : opField (encode i) = i.opCode := by
  have hop := i.opCode_lt
  rw [opField, toNat_encode h]
  omega

/-! ## Decoding -/

/-- The table's row of an instruction's own code and digit count is the instruction (30_encoding R52). -/
theorem opTable_opCode_digits (i : Instr) : opTable i.opCode i.digits = some i := by cases i <;> rfl

/-- Only the two operations with digits have a digit count (30_encoding R54). -/
theorem Instr.digits_eq_zero {i : Instr} (h5 : i.opCode ≠ 5) (h6 : i.opCode ≠ 6) : i.digits = 0 := by
  cases i with
  | encOffset d => exact absurd rfl h5
  | decOffset d => exact absurd rfl h6
  | encFreq | decFreq | encLevel | decLevel | toBytes | parse | isAck | isNak | isEcho => rfl

/-- Settles O5: the fields of the encoded word pass the decoder's checks, and the table gives the instruction back. -/
theorem decodeOfEncodeIsInstr : Obligations.DecodeOfEncodeIsInstr := by
  intro i h
  rw [decode_eq_ok, rsvField_encode h, opField_encode h, digField_encode h]
  exact ⟨rfl, opTable_opCode_digits i, fun ⟨h5, h6, hdig⟩ => hdig (Instr.digits_eq_zero h5 h6)⟩

/-- A decoded digit count is the 4-bit field DIG or 0. -/
theorem wf_of_decode_ok {w : CmdWord} {i : Instr} (h : decode w = .ok i) : i.wf = true := by
  obtain ⟨-, htab, -⟩ := decode_eq_ok.mp h
  obtain ⟨-, hdigits, -, -⟩ := opTable_eq_some htab
  rw [Instr.wf_iff, hdigits, digField]
  split <;> omega

/-- The code and the digit count of a decoded instruction are the fields OP and DIG of its word (30_encoding R53). -/
theorem fields_of_decode_ok {w : CmdWord} {i : Instr} (h : decode w = .ok i) :
    i.opCode = opField w ∧ i.digits = digField w := by
  have hwf := wf_of_decode_ok h
  rw [← encode_of_decode_ok h]
  exact ⟨(opField_encode hwf).symm, (digField_encode hwf).symm⟩

/-- Settles O6. -/
theorem encodeOfDecodeIsWord : Obligations.EncodeOfDecodeIsWord :=
  fun _ _ h => ⟨wf_of_decode_ok h, encode_of_decode_ok h⟩

/-- Settles O7: the words are the encodings of their operations. -/
theorem sampleWordsDecode : Obligations.SampleWordsDecode :=
  ⟨decodeOfEncodeIsInstr .encFreq rfl, decodeOfEncodeIsInstr .decLevel rfl, decodeOfEncodeIsInstr (.encOffset 4) rfl,
    decodeOfEncodeIsInstr (.decOffset 15) rfl, decodeOfEncodeIsInstr .toBytes rfl, decodeOfEncodeIsInstr .isEcho rfl⟩

/-- Settles O8: the illegal words are those the decoder rejects, and a rejected word answers before anything else of REQ is read. -/
theorem unassignedWordRaisesIllegalOperation : Obligations.UnassignedWordRaisesIllegalOperation := by
  intro s rest w hh hready hw op dig illegal
  have hrejected : (∃ e, decode w = .error e) ↔ illegal := decode_eq_error
  rw [step_issue hh hready]
  constructor
  · intro hill
    obtain ⟨e, he⟩ := hrejected.mpr hill
    exact ⟨_, transaction_of_decode_error hw he, only_isBare _⟩
  · intro hleg
    cases hd : decode w with
    | error e => exact absurd (hrejected.mp ⟨e, hd⟩) hleg
    | ok i =>
      obtain ⟨hop, hdig⟩ := fields_of_decode_ok hd
      exact ⟨i, rfl, hop, hdig, transaction_of_decode_ok hw hd⟩

end Sys2Proof
end

section
/-! PROOFS. The frames of the operations: nothing but RESP changes, and of RESP only the fields of the operation's row hold
values (10_state R21, 30_encoding R58). -/

namespace Sys2Proof.Machine

/-- What an operation that answers leaves: nothing but RESP changes, and the new record meets whatever the fields of the
operation's row and the bare record of an error both give. -/
theorem exec_next_frame {s t : State} {i : Instr} {P : Resp → Prop} (h : exec i s = .next t)
    (hwritten : ∀ r, FieldsWritten s.req r i → P r) (hbare : ∀ r c, r.IsBare c → P r) :
    SameButResp s t ∧ ∃ r, t.resp = some r ∧ P r := by
  obtain ⟨hsame, r, hr, hok | ⟨e, -, rfl⟩⟩ := exec_next_record h
  · exact ⟨hsame, r, hr, hwritten r (fieldsWritten_of_ok hok)⟩
  · exact ⟨hsame, _, hr, hbare _ _ (only_isBare e.code)⟩

/-- A buffer filled exactly below its length holds no byte from there on. -/
theorem read_eq_none_of_filled {m : Memory} {len : Option Nat} {n : Nat}
    (h : len = some n ∧ ∀ j, (m.read j).isSome ↔ j < n) : ∀ j, len.getD 0 ≤ j → m.read j = none := by
  obtain ⟨hlen, hfill⟩ := h
  intro j hj
  rw [hlen, Option.getD_some] at hj
  rw [← Option.not_isSome_iff_eq_none, hfill]
  omega

end Sys2Proof.Machine

namespace Sys2Proof
open Machine

/-- Settles O28: in each row R and the PF fields are empty, and OB is filled exactly below OB_LEN. -/
theorem storingOperationsFrame : Obligations.StoringOperationsFrame := by
  intro s t i hi h
  refine exec_next_frame h (fun r hr => ?_) fun r c ⟨_, hnum, ⟨_, hob⟩, hframe⟩ => ⟨hnum, hframe, fun j _ => hob j⟩
  rcases hi with rfl | rfl | ⟨d, -, rfl⟩ | rfl
  · exact hr.imp_right (And.imp_right read_eq_none_of_filled)
  · exact hr.imp_right (And.imp_right read_eq_none_of_filled)
  · exact hr.imp_right (And.imp_right read_eq_none_of_filled)
  · obtain ⟨hnum, hframe, k, n, -, -, hob⟩ := hr
    exact ⟨hnum, hframe, read_eq_none_of_filled hob⟩

/-- Settles O29: in each row OB and the PF fields are empty. -/
theorem numberOperationsFrame : Obligations.NumberOperationsFrame := by
  intro s t i hi h
  refine exec_next_frame h (fun r hr => ?_) fun r c ⟨_, _, hempty⟩ => hempty
  rcases hi with rfl | rfl | ⟨d, -, rfl⟩ | rfl | rfl | rfl <;> exact hr.2

/-- Settles O30: R and OB are empty in PARSE's row, and PF_PAYLOAD is filled exactly below PF_PLEN. -/
theorem parseFrame : Obligations.ParseFrame := by
  intro s t h
  refine exec_next_frame h (fun r hr => ?_) fun r c ⟨_, hnum, hbytes, hframe⟩ => ⟨hnum, hbytes, fun j _ => ?_⟩
  · obtain ⟨hnum, hbytes, -, -, -, -, -, n, hpayload⟩ := hr
    exact ⟨hnum, hbytes, read_eq_none_of_filled hpayload⟩
  · obtain ⟨-, -, -, -, -, -, hpayload⟩ := hframe
    exact hpayload j

end Sys2Proof
end

section
/-! PROOFS. The fields of REQ an assembler line fills (30_encoding R63). -/

namespace Sys2Proof.Machine

/-! ## What each kind of operand leaves in REQ -/

/-- The line writes the command word first, then its operand fields. -/
theorem fill_eq (l : AsmLine) (c : Config) (q : Req) :
    l.fill c q = l.operandWrites.foldl (fun q x => q.write c x.1 x.2) { q with cmd := some (encode l.instr) } := by
  simp [AsmLine.fill, AsmLine.writes, Req.write]

/-- What `ib=[...]` leaves in REQ. -/
theorem foldl_ibOperand (c : Config) (q : Req) (bs : List Byte) :
    (ibWrites bs).foldl (fun q x => q.write c x.1 x.2) q =
      { q with ibLen := some (storeLen c bs.length), ib := memWrite q.ib 0 bs } := by
  rw [ibWrites, List.foldl_cons, foldl_ibWrites, Req.write]

/-- What a frame operand leaves in REQ: F_CMD1 is written only where there is a second command byte. -/
theorem foldl_frameOperand (c : Config) (q : Req) (f : FrameArg) :
    (frameWrites f).foldl (fun q x => q.write c x.1 x.2) q =
      { q with
        fDest := some f.dest, fSrc := some f.src, fClen := some (BitVec.ofNat 2 (f.cmd0 :: f.cmd1.toList).length),
        fCmd0 := some f.cmd0, fCmd1 := f.cmd1.or q.fCmd1, fPlen := some (storeLen c f.payload.length),
        fPayload := memWrite q.fPayload 0 f.payload } := by
  rw [frameWrites, List.foldl_append, foldl_payloadWrites]
  cases hcmd : f.cmd1 <;> simp [Req.write]

/-- No operand field is the command word. -/
theorem cmd_fill (l : AsmLine) (c : Config) (q : Req) : (l.fill c q).cmd = some (encode l.instr) := by
  rw [fill_eq]
  cases l with
  | encFreq a | encLevel a | encOffset d a => rfl
  | decFreq ib | decLevel ib | decOffset d ib | parse ib => rw [AsmLine.operandWrites, foldl_ibOperand]
  | toBytes f | isAck f | isNak f | isEcho f => rw [AsmLine.operandWrites, foldl_frameOperand]

/-- The bytes a line stores from index 0 are there afterwards. -/
theorem read_memWrite_zero (m : Memory) {bs : List Byte} {j : Nat} (hj : j < bs.length) : (memWrite m 0 bs).read j = bs[j]? := by
  rw [read_memWrite, if_pos ⟨Nat.zero_le j, by omega⟩, Nat.sub_zero]

/-- Bytes that fit the buffer are the input afterwards. -/
theorem holdsInput_ibOperand {c : Config} (q : Req) {bs : List Byte} (h : bs.length ≤ c.maxFrameBytes) :
    ((ibWrites bs).foldl (fun q x => q.write c x.1 x.2) q).HoldsInput bs := by
  rw [foldl_ibOperand, storeLen_of_le h]
  exact ⟨rfl, fun _ => read_memWrite_zero q.ib⟩

/-- A frame whose payload fits the buffer is the frame operand afterwards. -/
theorem holdsFrame_frameOperand {c : Config} (q : Req) {f : FrameArg} (h : f.payload.length ≤ c.maxFrameBytes) :
    ((frameWrites f).foldl (fun q x => q.write c x.1 x.2) q).HoldsFrame f.dest f.src (f.cmd0 :: f.cmd1.toList) f.payload := by
  rw [foldl_frameOperand, storeLen_of_le h]
  have hpayload : ∀ j, j < f.payload.length → (memWrite q.fPayload 0 f.payload).read j = f.payload[j]? :=
    fun _ => read_memWrite_zero q.fPayload
  cases hcmd : f.cmd1 with
  | none => exact ⟨rfl, rfl, .inl rfl, rfl, rfl, nofun, rfl, hpayload⟩
  | some c1 => exact ⟨rfl, rfl, .inr rfl, rfl, rfl, fun _ => rfl, rfl, hpayload⟩

end Sys2Proof.Machine

namespace Sys2Proof
open Machine

/-- Settles O49: one lemma for each kind of operand. -/
theorem assemblerLineFillsRequest : Obligations.AssemblerLineFillsRequest := by
  rintro c q -
  refine ⟨fun l _ => cmd_fill l c q, fun ib l hfit hl => ?_, fun a l hl => ?_, fun f l hfit hl => ?_⟩ <;> rw [fill_eq]
  · rcases hl with rfl | rfl | ⟨d, rfl⟩ | rfl <;> exact holdsInput_ibOperand _ hfit
  · rcases hl with rfl | rfl | ⟨d, rfl⟩ <;> rfl
  · rcases hl with rfl | rfl | rfl | rfl <;> exact holdsFrame_frameOperand _ (by omega)

/-- Settles O48: the text is read by evaluation, and the line fills the command word and A. -/
theorem assemblerExample : Obligations.AssemblerExample :=
  ⟨by decide, fun q => fill_eq _ _ q⟩

end Sys2Proof
end

section
/-! PROOFS. What each BCD operation answers, on every operand (40_bcd R65–R71). -/

namespace Sys2Proof.Machine

/-! ## From what an operation answers to the next state -/

/-- An operation that completes answers with its record. -/
theorem exec_answers_of_ok {i : Instr} {s : State} {r : Resp} {P : Resp → Prop} (h : respOf s.cfg s.req i = .ok r) (hr : P r) :
    AnswersWith s (exec i s) P := by
  rw [exec_eq_finish]
  exact answers_of_ok h hr

/-- An operation that raises an error answers with its code. -/
theorem exec_answers_of_raised {i : Instr} {s : State} {e : ErrorKind} (h : respOf s.cfg s.req i = .error (.raised e)) :
    AnswersWith s (exec i s) (·.IsBare e.code) := by
  rw [exec_eq_finish]
  exact answers_of_raised h

/-- An operation that comes down to one condition answers with its record where it holds, and with the error where it fails. -/
theorem exec_answers_ite {i : Instr} {s : State} {c : Prop} [Decidable c] {e : ErrorKind} {r : Resp} {P : Resp → Prop}
    (h : respOf s.cfg s.req i = if c then .ok r else .error (.raised e)) (hr : P r) :
    (c → AnswersWith s (exec i s) P) ∧ (¬c → AnswersWith s (exec i s) (·.IsBare e.code)) :=
  ⟨fun hc => exec_answers_of_ok (h.trans (if_pos hc)) hr, fun hc => exec_answers_of_raised (h.trans (if_neg hc))⟩

/-! ## The length of a decoder's input -/

/-- A decoder with the number of bytes its encoding has (40_bcd R66, R68, R71). -/
def DecodesLength (i : Instr) (n : Nat) : Prop :=
  (i = .decFreq ∧ n = 5) ∨ (i = .decLevel ∧ n = 2) ∨ ∃ d, d ≠ 0 ∧ i = .decOffset d ∧ n = d / 2 + 1

/-- An error of reading the input is the decoder's. -/
theorem respOf_of_input_raised {c : Config} {q : Req} {i : Instr} {n : Nat} {e : ErrorKind} (hi : DecodesLength i n)
    (h : operandBytes c q n = .error (.raised e)) : respOf c q i = .error (.raised e) := by
  rcases hi with ⟨rfl, rfl⟩ | ⟨rfl, rfl⟩ | ⟨d, hd, rfl, rfl⟩
  · rw [respOf, respDecFreq, freqBytes, h, error_bind]
  · rw [respOf, respDecLevel, levelBytes, h, error_bind]
  · rw [respOf, respDecOffset, check_true hd, ok_bind, offsetLen, h, error_bind]

/-- A decoder rejects a length beyond the buffer, and then a length that is not its encoding's, whatever IB holds. -/
theorem decoder_rejects_length {i : Instr} {n len : Nat} {s : State} (hi : DecodesLength i n) (hlen : s.req.ibLen = some len) :
    (s.cfg.maxFrameBytes < len → AnswersWith s (exec i s) (·.IsBare 0x03)) ∧
    (len ≤ s.cfg.maxFrameBytes → len ≠ n → AnswersWith s (exec i s) (·.IsBare 0x01)) :=
  ⟨fun hlong => exec_answers_of_raised (respOf_of_input_raised hi (operandBytes_of_long hlen hlong)),
    fun hfit hne => exec_answers_of_raised (respOf_of_input_raised hi (operandBytes_of_wrong_length hlen hfit hne))⟩

/-- The bytes of an input whose length is the encoding's and fits the buffer. -/
theorem operandBytes_of_holds {c : Config} {q : Req} {len n : Nat} {b : List Byte} (hlen : q.ibLen = some len)
    (hfit : len ≤ c.maxFrameBytes) (hb : b.length = n) (h : q.HoldsInput b) : operandBytes c q n = .ok b := by
  have hl : b.length = len := Option.some.inj (h.1.symm.trans hlen)
  exact operandBytes_eq_ok.mpr ⟨hb, by omega, h⟩

/-! ## Checks on the input's bytes -/

/-- Two checks in a row with one error are one check. -/
theorem check_bind_check {α : Type} {c c' : Prop} [Decidable c] [Decidable c'] {e : ErrorKind} (k : Except Halt α) :
    (check c e >>= fun _ => check c' e >>= fun _ => k) = (check (c ∧ c') e >>= fun _ => k) := by
  by_cases h : c
  · simp [check, h]
  · simp [check, h]

/-- A last check decides between the record and its error. -/
theorem check_bind_ok {α : Type} {c : Prop} [Decidable c] {e : ErrorKind} (a : α) :
    (check c e >>= fun _ => .ok a) = if c then .ok a else .error (.raised e) := by
  by_cases h : c <;> simp [check, h]

/-- A valid digit pair is one whose nibbles are decimal digits (00_scope R11). -/
theorem validPair_iff_legalPair (b : Byte) : validPair b = true ↔ LegalPair b := validPair_iff b

/-- Valid bytes are those with decimal digits only. -/
theorem all_validPair_iff (b : List Byte) : b.all validPair = true ↔ ∀ x ∈ b, LegalPair x := by
  simp only [List.all_eq_true, validPair_iff_legalPair]

/-- DEC_FREQ on an input of the right length: one check. -/
theorem respDecFreq_of_input {c : Config} {q : Req} {b : List Byte} (h : operandBytes c q freqBytes = .ok b) :
    respDecFreq c q =
      if b.all validPair = true then .ok (Resp.number (BitVec.ofNat 64 (bcdValue b)))
      else .error (.raised .malformedData) := by
  rw [respDecFreq, h, ok_bind, pure_ok, check_bind_ok]

/-- DEC_LEVEL on an input of the right length: two checks with one error. -/
theorem respDecLevel_of_input {c : Config} {q : Req} {b : List Byte} (h : operandBytes c q levelBytes = .ok b) :
    respDecLevel c q =
      if b.all validPair = true ∧ bcdValue b ≤ maxLevel then .ok (Resp.number (BitVec.ofNat 64 (bcdValue b)))
      else .error (.raised .malformedData) := by
  rw [respDecLevel, h, ok_bind, pure_ok, check_bind_check, check_bind_ok]

/-- The magnitude and the sign as 40_bcd R71 writes them. -/
theorem offsetValue_eq (b : List Byte) (d : Nat) :
    offsetValue b d = if 128 ≤ (b.getD (d / 2) 0).toNat then -(magnitudeOf b d : Int) else (magnitudeOf b d : Int) := by
  rw [offsetValue, offsetMagnitude_eq_sum, signByte_eq]
  exact if_congr decide_eq_true_iff rfl rfl

/-- The bytes before the sign byte hold valid pairs exactly when each of them does. -/
theorem all_take_validPair_iff {b : List Byte} {n : Nat} (hn : n ≤ b.length) :
    (b.take n).all validPair = true ↔ ∀ j, j < n → LegalPair (b.getD j 0) := by
  rw [all_validPair_iff, List.forall_mem_iff_getElem]
  simp only [List.length_take, Nat.min_eq_left hn, List.getElem_take]
  refine forall₂_congr fun j hj => ?_
  rw [List.getD_eq_getElem _ _ (by omega)]

/-- Of the sequences of the right length the canonical ones are those 40_bcd R71 does not reject. -/
theorem offsetCanonical_iff {b : List Byte} {d : Nat} (hb : b.length = d / 2 + 1) :
    OffsetCanonical b d ↔ ¬OffsetRejected b d := by
  have hpairs : (b.take (offsetLen d - 1)).all validPair = true ↔ ∀ j, j < d / 2 → LegalPair (b.getD j 0) :=
    all_take_validPair_iff (by rw [offsetLen]; omega)
  rw [OffsetRejected, ← offsetMagnitude_eq_sum, ← signByte_eq]
  simp only [not_or, not_exists, not_and, not_not, ne_eq, not_lt, ← hpairs]
  constructor
  · rintro ⟨-, hpairs, hunused, hodd, heven, hzero⟩
    exact ⟨hpairs, hunused, hodd, heven, fun hs hz => hzero ⟨decide_eq_true hs, hz⟩⟩
  · rintro ⟨hpairs, hunused, hodd, heven, hzero⟩
    exact ⟨hb, hpairs, hunused, hodd, heven, fun ⟨hs, hz⟩ => hzero (of_decide_eq_true hs) hz⟩

/-- The five checks of DEC_OFFSET are those of `OffsetCanonical`, and they have one error. -/
theorem respDecOffset_of_input {c : Config} {q : Req} {b : List Byte} {d : Nat} [Decidable (OffsetCanonical b d)] (hd : d ≠ 0)
    (hb : b.length = offsetLen d) (h : operandBytes c q (offsetLen d) = .ok b) :
    respDecOffset c q d =
      if OffsetCanonical b d then .ok (Resp.number (BitVec.ofInt 64 (offsetValue b d)))
      else .error (.raised .malformedData) := by
  rw [respDecOffset, check_true hd, ok_bind, h, ok_bind]
  simp only [check_bind_check, pure_ok]
  rw [check_bind_ok]
  refine if_congr ⟨?_, ?_⟩ rfl rfl
  · rintro ⟨hpairs, hunused, hodd, heven, hzero⟩
    exact ⟨hb, hpairs, hunused, hodd, heven, hzero⟩
  · rintro ⟨-, hpairs, hunused, hodd, heven, hzero⟩
    exact ⟨hpairs, hunused, hodd, heven, hzero⟩

/-! ## The bytes of the encoders -/

/-- The bytes of an offset as 40_bcd R69 writes them. -/
theorem offsetBytes_eq (x : Int) (d : Nat) : offsetBytes x d = (List.range (d / 2 + 1)).map fun j => BitVec.ofNat 8
    (16 * (if 2 * j + 1 < d then x.natAbs / 10 ^ (2 * j + 1) % 10 else 0) +
      (if 2 * j < d then x.natAbs / 10 ^ (2 * j) % 10 else 0) + (if j = d / 2 ∧ x < 0 then 128 else 0)) := by
  refine List.map_congr_left fun j _ => ?_
  rw [offsetByte, offsetLen]
  simp only [digit, Nat.add_right_cancel_iff]

/-- A level's three digits in its two bytes, as 40_bcd R67 writes them. -/
theorem encLevelBytes_eq (v : Nat) : [bcdByte (digit v 1) (digit v 0), bcdByte 0 (digit v 2)] =
    [BitVec.ofNat 8 (16 * (v / 10 % 10) + v % 10), BitVec.ofNat 8 (v / 100 % 10)] := by
  simp [bcdByte, digit]

end Sys2Proof.Machine

namespace Sys2Proof
open Machine

/-- Settles O12: the bytes are `bcdBytes` of A. -/
theorem encFreqAnswers : Obligations.EncFreqAnswers := by
  refine ⟨rfl, fun s a ha => ?_⟩
  obtain ⟨hok, hbad⟩ := exec_answers_ite (i := .encFreq) (respEncFreq_some ha) (P := (·.IsBytes _)) (bytes_isBytes _)
  exact ⟨hok, fun hgt => hbad (Nat.not_le.mpr hgt)⟩

/-- Settles O14. -/
theorem encLevelAnswers : Obligations.EncLevelAnswers := by
  refine ⟨rfl, fun s a ha => ?_⟩
  obtain ⟨hok, hbad⟩ := exec_answers_ite (i := .encLevel) (respEncLevel_some ha) (P := (·.IsBytes _)) (bytes_isBytes _)
  rw [encLevelBytes_eq] at hok
  exact ⟨hok, fun hgt => hbad (Nat.not_le.mpr hgt)⟩

/-- Settles O16: the bytes are `offsetBytes` of A. -/
theorem encOffsetAnswers : Obligations.EncOffsetAnswers := by
  intro s d hd
  refine ⟨toNat_encode (i := .encOffset d) (decide_eq_true hd), fun h0 => ?_, fun a ha hne => ?_⟩
  · have hraised : respEncOffset s.req d = .error (.raised .invalidParameter) := by
      rw [respEncOffset, check_false (not_not.mpr h0), error_bind]
    exact exec_answers_of_raised (i := .encOffset d) hraised
  obtain ⟨hok, hbad⟩ := exec_answers_ite (i := .encOffset d) (respEncOffset_some ha) (P := (·.IsBytes _)) (bytes_isBytes _)
  rw [offsetBytes_eq] at hok
  exact ⟨fun hgt => hbad fun h => Nat.not_le.mpr hgt h.2, fun hle => hok ⟨hne, hle⟩⟩

/-- Settles O13: beyond the length there is one check, that every pair of digits is legal. -/
theorem decFreqAnswers : Obligations.DecFreqAnswers := by
  refine ⟨rfl, fun s len hlen => ?_⟩
  obtain ⟨hlong, hwrong⟩ := decoder_rejects_length (i := .decFreq) (.inl ⟨rfl, rfl⟩) hlen
  refine ⟨hlong, hwrong, fun hfit b hb hin => ?_⟩
  obtain ⟨hok, hbad⟩ := exec_answers_ite (i := .decFreq)
    (respDecFreq_of_input (operandBytes_of_holds hlen hfit hb hin)) (P := (·.IsNumber _)) (number_isNumber _)
  rw [all_validPair_iff] at hok hbad
  rw [bcdValue_eq_sum, hb] at hok
  exact ⟨fun ⟨x, hx, hill⟩ => hbad fun h => hill (h x hx), hok⟩

/-- Settles O15: beyond the length there are two checks with one error, the digits and the bound. -/
theorem decLevelAnswers : Obligations.DecLevelAnswers := by
  refine ⟨rfl, fun s len hlen => ?_⟩
  obtain ⟨hlong, hwrong⟩ := decoder_rejects_length (i := .decLevel) (.inr (.inl ⟨rfl, rfl⟩)) hlen
  refine ⟨hlong, hwrong, fun hfit b0 b1 hin => ?_⟩
  intro v
  have hv : bcdValue [b0, b1] = v := by simp only [bcdValue, highNibble, lowNibble, v]; omega
  obtain ⟨hok, hbad⟩ := exec_answers_ite (i := .decLevel)
    (respDecLevel_of_input (operandBytes_of_holds hlen hfit rfl hin)) (P := (·.IsNumber _)) (number_isNumber _)
  rw [all_validPair_iff, hv, List.forall_mem_cons, List.forall_mem_singleton] at hok hbad
  refine ⟨fun hill => hbad ?_, fun h0 h1 hle => hok ⟨⟨h0, h1⟩, hle⟩⟩
  rintro ⟨⟨h0, h1⟩, hle⟩
  obtain h | h | h := hill
  · exact h h0
  · exact h h1
  · exact Nat.not_le.mpr h hle

/-- Settles O17: beyond the length the checks are those of `OffsetCanonical`, all with one error. -/
theorem decOffsetAnswers : Obligations.DecOffsetAnswers := by
  classical
  intro s d hd
  refine ⟨toNat_encode (i := .decOffset d) (decide_eq_true hd), fun h0 => ?_, fun len hlen hne => ?_⟩
  · have hraised : respDecOffset s.cfg s.req d = .error (.raised .invalidParameter) := by
      rw [respDecOffset, check_false (not_not.mpr h0), error_bind]
    exact exec_answers_of_raised (i := .decOffset d) hraised
  obtain ⟨hlong, hwrong⟩ := decoder_rejects_length (i := .decOffset d) (.inr (.inr ⟨d, hne, rfl, rfl⟩)) hlen
  refine ⟨hlong, hwrong, fun hfit b hb hin => ?_⟩
  obtain ⟨hok, hbad⟩ := exec_answers_ite (i := .decOffset d)
    (respDecOffset_of_input hne hb (operandBytes_of_holds hlen hfit hb hin)) (P := (·.IsNumber _)) (number_isNumber _)
  rw [offsetCanonical_iff hb] at hok hbad
  rw [offsetValue_eq] at hok
  exact ⟨fun h => hbad (not_not.mpr h), hok⟩

end Sys2Proof
end

section
/-! PROOFS. The BCD codecs are inverse: a decoder completes exactly on what its encoder gives, and returns the operand (40_bcd
R72). -/

namespace Sys2Proof.Machine

/-! ## The bytes of an encoder -/

/-- The bytes an encoder gives for an operand of its domain; `respOf_encoder` says that it does (40_bcd R65, R67, R69). -/
def encodedBytes : Instr → Word64 → List Byte
  | .encFreq, a => bcdBytes a.toNat freqBytes
  | .encLevel, a => bcdBytes a.toNat levelBytes
  | .encOffset d, a => offsetBytes a.toInt d
  | .decFreq, _ | .decLevel, _ | .decOffset _, _ | .toBytes, _ | .parse, _ | .isAck, _ | .isNak, _ | .isEcho, _ => []

/-- A level has no fourth digit, so its two bytes are BCD bytes like those of a frequency. -/
theorem bcdBytes_of_level {v : Nat} (h : v ≤ maxLevel) :
    [bcdByte (digit v 1) (digit v 0), bcdByte 0 (digit v 2)] = bcdBytes v levelBytes := by
  have hthousands : digit v 3 = 0 := by
    rw [digit, Nat.div_eq_of_lt (Nat.lt_of_le_of_lt h (by decide)), Nat.zero_mod]
  calc [bcdByte (digit v 1) (digit v 0), bcdByte 0 (digit v 2)]
      = [bcdByte (digit v 1) (digit v 0), bcdByte (digit v 3) (digit v 2)] := by rw [hthousands]
    _ = bcdBytes v levelBytes := rfl

/-- An encoder completes on its domain with `encodedBytes`. -/
theorem respOf_encoder {c : Config} {q : Req} {enc : Instr} {a : Word64} (ha : q.a = some a) (h : encoderDomain enc a) :
    respOf c q enc = .ok (Resp.bytes (encodedBytes enc a)) := by
  cases enc with
  | encFreq => exact (respEncFreq_some ha).trans (if_pos h)
  | encLevel =>
    rw [encodedBytes, ← bcdBytes_of_level h]
    exact (respEncLevel_some ha).trans (if_pos h)
  | encOffset d =>
    obtain ⟨⟨hd, -⟩, hle⟩ := h
    exact (respEncOffset_some ha).trans (if_pos ⟨Nat.one_le_iff_ne_zero.mp hd, hle⟩)
  | decFreq | decLevel | decOffset _ | toBytes | parse | isAck | isNak | isEcho => exact h.elim

/-- The bytes of every encoder fit the smallest buffer 00_scope R6 allows. -/
theorem fits_encodedBytes {c : Config} {enc : Instr} {a : Word64} (h : encoderDomain enc a) (hc : c.Wf) :
    (encodedBytes enc a).length ≤ c.maxFrameBytes := by
  obtain ⟨-, -, hmin, -⟩ := hc
  cases enc with
  | encFreq => rw [encodedBytes, length_bcdBytes, freqBytes]; omega
  | encLevel => rw [encodedBytes, length_bcdBytes, levelBytes]; omega
  | encOffset d =>
    obtain ⟨⟨-, hd⟩, -⟩ := h
    rw [encodedBytes, length_offsetBytes, offsetLen]
    omega
  | decFreq | decLevel | decOffset _ | toBytes | parse | isAck | isNak | isEcho => exact h.elim

/-- The offset 0 has only zero digits and no sign. -/
theorem encodedBytes_offset_zero (d : Nat) : encodedBytes (.encOffset d) 0 = List.replicate (d / 2 + 1) 0x00 := by
  have hbyte : offsetByte 0 d = fun _ => 0x00 := funext fun j => by simp [offsetByte, digit]
  simp [encodedBytes, offsetBytes, hbyte, offsetLen]

/-! ## What the decoders accept -/

/-- Valid BCD bytes of a number up to a bound, and the number they hold, are the bytes of a word up to that bound. -/
theorem validBcd_iff {b : List Byte} {n max : Nat} {v : Word64} (hn : max < 100 ^ n) (hw : max < 2 ^ 64) :
    (b.length = n ∧ b.all validPair = true ∧ bcdValue b ≤ max ∧ v = BitVec.ofNat 64 (bcdValue b)) ↔
      v.toNat ≤ max ∧ b = bcdBytes v.toNat n := by
  constructor
  · rintro ⟨rfl, hvalid, hmax, rfl⟩
    have hv : (BitVec.ofNat 64 (bcdValue b)).toNat = bcdValue b := by
      rw [BitVec.toNat_ofNat, Nat.mod_eq_of_lt (by omega)]
    rw [hv]
    exact ⟨hmax, (bcdBytes_bcdValue hvalid).symm⟩
  · rintro ⟨hmax, rfl⟩
    have hv : bcdValue (bcdBytes v.toNat n) = v.toNat := by rw [bcdValue_bcdBytes, Nat.mod_eq_of_lt (by omega)]
    rw [hv]
    exact ⟨length_bcdBytes _ _, bcdBytes_valid _ _, hmax, by rw [BitVec.ofNat_toNat, BitVec.setWidth_eq]⟩

/-- A magnitude of at most 15 digits fits a 64-bit two's-complement word. -/
theorem toInt_ofInt_of_digits {x : Int} {d : Nat} (hd : d ≤ 15) (hx : x.natAbs ≤ 10 ^ d - 1) : (BitVec.ofInt 64 x).toInt = x := by
  have hpow : 10 ^ d ≤ 10 ^ 15 := Nat.pow_le_pow_right (by decide) hd
  rw [BitVec.toInt_ofInt]
  exact Int.bmod_eq_of_le (by omega) (by omega)

/-- Canonical offset bytes, and the offset they hold, are the bytes of a word in the encoder's domain. -/
theorem offsetCanonical_iff_encoded {b : List Byte} {d : Nat} {v : Word64} (hd : d ≤ 15) :
    (OffsetCanonical b d ∧ v = BitVec.ofInt 64 (offsetValue b d)) ↔
      v.toInt.natAbs ≤ 10 ^ d - 1 ∧ b = offsetBytes v.toInt d := by
  constructor
  · rintro ⟨hcanon, rfl⟩
    rw [toInt_ofInt_of_digits hd hcanon.natAbs_le]
    exact ⟨hcanon.natAbs_le, hcanon.bytes_eq.symm⟩
  · rintro ⟨hdom, rfl⟩
    rw [offsetValue_offsetBytes hdom, BitVec.ofInt_toInt]
    exact ⟨offsetCanonical_offsetBytes hdom, rfl⟩

/-- The decoder accepts the bytes and gives the number: its checks, and the value it returns (40_bcd R66, R68, R71). -/
def AcceptedAs (dec : Instr) (b : List Byte) (v : Word64) : Prop :=
  match dec with
  | .decFreq => b.length = freqBytes ∧ b.all validPair = true ∧ v = BitVec.ofNat 64 (bcdValue b)
  | .decLevel =>
    b.length = levelBytes ∧ b.all validPair = true ∧ bcdValue b ≤ maxLevel ∧ v = BitVec.ofNat 64 (bcdValue b)
  | .decOffset d => d ≠ 0 ∧ OffsetCanonical b d ∧ v = BitVec.ofInt 64 (offsetValue b d)
  | .encFreq | .encLevel | .encOffset _ | .toBytes | .parse | .isAck | .isNak | .isEcho => False

/-- A decoder completes exactly on an input it accepts. -/
theorem respOf_decoder_eq_ok {c : Config} {q : Req} {enc dec : Instr} {r : Resp} (hpair : decoderOf enc = some dec) :
    respOf c q dec = .ok r ↔
      ∃ b v, AcceptedAs dec b v ∧ b.length ≤ c.maxFrameBytes ∧ q.HoldsInput b ∧ r = Resp.number v := by
  cases enc with
  | encFreq =>
    cases hpair
    rw [respOf, respDecFreq_eq_ok]
    constructor
    · rintro ⟨b, hlen, hfit, hin, hvalid, rfl⟩
      exact ⟨b, _, ⟨hlen, hvalid, rfl⟩, hlen ▸ hfit, hin, rfl⟩
    · rintro ⟨b, v, ⟨hlen, hvalid, rfl⟩, hfit, hin, rfl⟩
      exact ⟨b, hlen, hlen ▸ hfit, hin, hvalid, rfl⟩
  | encLevel =>
    cases hpair
    rw [respOf, respDecLevel_eq_ok]
    constructor
    · rintro ⟨b, hlen, hfit, hin, hvalid, hmax, rfl⟩
      exact ⟨b, _, ⟨hlen, hvalid, hmax, rfl⟩, hlen ▸ hfit, hin, rfl⟩
    · rintro ⟨b, v, ⟨hlen, hvalid, hmax, rfl⟩, hfit, hin, rfl⟩
      exact ⟨b, hlen, hlen ▸ hfit, hin, hvalid, hmax, rfl⟩
  | encOffset d =>
    cases hpair
    rw [respOf, respDecOffset_eq_ok]
    constructor
    · rintro ⟨hd, b, hfit, hin, hcanon, rfl⟩
      exact ⟨b, _, ⟨hd, hcanon, rfl⟩, hcanon.length ▸ hfit, hin, rfl⟩
    · rintro ⟨b, v, ⟨hd, hcanon, rfl⟩, hfit, hin, rfl⟩
      exact ⟨hd, b, hcanon.length ▸ hfit, hin, hcanon, rfl⟩
  | decFreq | decLevel | decOffset _ | toBytes | parse | isAck | isNak | isEcho => cases hpair

/-- The law of 40_bcd R72: what a decoder accepts is what its encoder gives for an operand of its domain, and it gives that operand
back. -/
theorem acceptedAs_iff {enc dec : Instr} {b : List Byte} {v : Word64} (hwf : enc.wf = true) (hpair : decoderOf enc = some dec) :
    AcceptedAs dec b v ↔ encoderDomain enc v ∧ b = encodedBytes enc v := by
  cases enc with
  | encFreq =>
    cases hpair
    rw [encoderDomain, encodedBytes, ← validBcd_iff (by decide) (by decide), AcceptedAs]
    constructor
    · rintro ⟨hlen, hvalid, hv⟩
      have hlt := bcdValue_lt hvalid
      rw [hlen] at hlt
      exact ⟨hlen, hvalid, Nat.le_pred_of_lt hlt, hv⟩
    · rintro ⟨hlen, hvalid, -, hv⟩
      exact ⟨hlen, hvalid, hv⟩
  | encLevel =>
    cases hpair
    rw [encoderDomain, encodedBytes, ← validBcd_iff (by decide) (by decide), AcceptedAs]
  | encOffset d =>
    cases hpair
    have hd : d ≤ 15 := Nat.le_of_lt_succ (of_decide_eq_true hwf)
    rw [encoderDomain, encodedBytes, and_assoc, ← offsetCanonical_iff_encoded hd, AcceptedAs, Nat.one_le_iff_ne_zero,
      and_iff_left hd]
  | decFreq | decLevel | decOffset _ | toBytes | parse | isAck | isNak | isEcho => cases hpair

/-- A decoder gives one number for its input. -/
theorem acceptedAs_unique {dec : Instr} {b : List Byte} {v v' : Word64} (h : AcceptedAs dec b v) (h' : AcceptedAs dec b v') :
    v = v' := by
  cases dec with
  | decFreq | decOffset _ =>
    obtain ⟨-, -, hv⟩ := h
    obtain ⟨-, -, hv'⟩ := h'
    exact hv.trans hv'.symm
  | decLevel =>
    obtain ⟨-, -, -, hv⟩ := h
    obtain ⟨-, -, -, hv'⟩ := h'
    exact hv.trans hv'.symm
  | encFreq | encLevel | encOffset _ | toBytes | parse | isAck | isNak | isEcho => exact h.elim

/-! ## The operations as inverse functions -/

/-- A state in which the host has written A, and nothing else. -/
def stateWithOperand (a : Word64) : State := { State.reset with req := { Req.unwritten with a := some a } }

section
variable {enc dec : Instr} (hwf : enc.wf = true) (hpair : decoderOf enc = some dec)

/-- An encoder answers an operand of its domain with `encodedBytes`, in every state. -/
theorem encodesTo_encodedBytes {a : Word64} (h : encoderDomain enc a) : EncodesTo enc a (encodedBytes enc a) :=
  fun _ ha => exec_answers_of_ok (respOf_encoder ha h) (bytes_isBytes _)

/-- An encoder gives one sequence of bytes for an operand of its domain. -/
theorem eq_encodedBytes {a : Word64} {bs : List Byte} (h : encoderDomain enc a) (hbs : EncodesTo enc a bs) :
    bs = encodedBytes enc a := by
  obtain ⟨r, hr, hbytes⟩ := hbs (stateWithOperand a) rfl
  obtain ⟨r', hr', hbytes'⟩ := encodesTo_encodedBytes h (stateWithOperand a) rfl
  cases hr.symm.trans hr'
  exact isBytes_inj hbytes hbytes'

include hwf hpair

/-- A decoder answers the bytes of an operand with the operand, in every state whose buffer has room for them. -/
theorem decoder_answers_operand {a : Word64} {u : State} (h : encoderDomain enc a)
    (hfit : (encodedBytes enc a).length ≤ u.cfg.maxFrameBytes) (hin : u.req.HoldsInput (encodedBytes enc a)) :
    AnswersWith u (exec dec u) (·.IsNumber a) :=
  exec_answers_of_ok ((respOf_decoder_eq_ok hpair).mpr ⟨_, a, (acceptedAs_iff hwf hpair).mpr ⟨h, rfl⟩, hfit, hin, rfl⟩)
    (number_isNumber a)

/-- A decoder that answers with STATUS = OK was given its encoder's bytes for the operand it returns. -/
theorem decoder_ok_input {s t : State} {r : Resp} (h : exec dec s = .next t) (hr : t.resp = some r) (hok : r.status = 0x00) :
    ∃ a, encoderDomain enc a ∧ s.req.HoldsInput (encodedBytes enc a) ∧ r = Resp.number a := by
  obtain ⟨-, r', hr', hresp | ⟨e, -, rfl⟩⟩ := exec_next_record h
  · cases hr.symm.trans hr'
    obtain ⟨b, a, hacc, -, hin, hnum⟩ := (respOf_decoder_eq_ok hpair).mp hresp
    obtain ⟨hdom, rfl⟩ := (acceptedAs_iff hwf hpair).mp hacc
    exact ⟨a, hdom, hin, hnum⟩
  · cases hr.symm.trans hr'
    exact absurd hok (code_ne_ok e)

/-- Decoding the copied output of an encoder gives the operand back. -/
theorem decoder_of_encoder_output {s : State} {a : Word64} (ha : s.req.a = some a) (h : encoderDomain enc a) :
    AnswersWith s (exec enc s) fun r => r.IsBytes (encodedBytes enc a) ∧ ∀ u : State,
      (encodedBytes enc a).length ≤ u.cfg.maxFrameBytes → u.req.TakesOutput r → AnswersWith u (exec dec u) (·.IsNumber a) := by
  obtain ⟨r, hr, hbytes⟩ := encodesTo_encodedBytes h s ha
  refine ⟨r, hr, hbytes, fun u hfit ⟨hlen, hread⟩ => decoder_answers_operand hwf hpair h hfit ?_⟩
  exact holdsInput_of_isBytes hbytes hlen (hread _ hbytes.2.2.1)

/-- Encoding the number a decoder returned gives its input back. -/
theorem encoder_of_decoder_output {s t u : State} {v : Word64} {r : Resp} (h : exec dec s = .next t) (hr : t.resp = some r)
    (hok : r.status = 0x00) (hv : r.r = some v) (hu : u.req.a = some v) :
    AnswersWith u (exec enc u) fun e => e.status = 0x00 ∧ s.req.TakesOutput e := by
  obtain ⟨a, hdom, ⟨hlen, hread⟩, rfl⟩ := decoder_ok_input hwf hpair h hr hok
  cases hv
  obtain ⟨e, he, hstatus, -, hob, hbytes, -⟩ := encodesTo_encodedBytes hdom u hu
  refine ⟨e, he, hstatus, hlen.trans hob.symm, fun n hn j hj => ?_⟩
  cases hob.symm.trans hn
  exact (hread j hj).trans (hbytes j).symm

end

end Sys2Proof.Machine

namespace Sys2Proof
open Machine

/-- Settles O18. -/
theorem freqCodecsAreInverse : Obligations.FreqCodecsAreInverse := by
  refine ⟨fun s a ha hmax => ?_, fun s t v r h hr hok hv u => encoder_of_decoder_output (enc := .encFreq) rfl rfl h hr hok hv⟩
  obtain ⟨r, hr, hbytes, hdec⟩ := decoder_of_encoder_output (enc := .encFreq) rfl rfl ha hmax
  exact ⟨r, hr, hbytes.1, hdec⟩

/-- Settles O19. -/
theorem levelCodecsAreInverse : Obligations.LevelCodecsAreInverse := by
  refine ⟨fun s a ha hmax => ?_, fun s t v r h hr hok hv u => encoder_of_decoder_output (enc := .encLevel) rfl rfl h hr hok hv⟩
  obtain ⟨r, hr, hbytes, hdec⟩ := decoder_of_encoder_output (enc := .encLevel) rfl rfl ha hmax
  exact ⟨r, hr, hbytes.1, hdec⟩

/-- Settles O20. -/
theorem offsetCodecsAreInverse : Obligations.OffsetCodecsAreInverse := by
  intro d hd1 hd15
  have hwf : (Instr.encOffset d).wf = true := decide_eq_true (Nat.lt_succ_of_le hd15)
  refine ⟨fun s a ha hmax => ?_, fun s t v r h hr hok hv u => encoder_of_decoder_output hwf rfl h hr hok hv⟩
  obtain ⟨r, hr, hbytes, hdec⟩ := decoder_of_encoder_output hwf rfl ha ⟨⟨hd1, hd15⟩, hmax⟩
  rw [encodedBytes, length_offsetBytes] at hdec
  refine ⟨r, hr, hbytes.1, ?_, hdec⟩
  rintro rfl
  rwa [encodedBytes_offset_zero] at hbytes

/-- Settles O59: for each pair, what the decoder accepts is what the encoder gives. -/
theorem encodersAreBijective : Obligations.EncodersAreBijective := by
  refine ⟨fun enc dec hwf hpair => ⟨fun a h => ?_, fun s t bs r hcfg hin h hr => ⟨fun hok => ?_, ?_⟩, ?_⟩, fun d hd1 hd15 => ?_⟩
  · refine ⟨_, encodesTo_encodedBytes h, fun u hcfg hin => decoder_answers_operand hwf hpair h ?_ hin⟩
    exact fits_encodedBytes h hcfg
  · obtain ⟨a, hdom, hin', -⟩ := decoder_ok_input hwf hpair h hr hok
    rw [holdsInput_unique hin' hin]
    exact ⟨a, hdom, encodesTo_encodedBytes hdom⟩
  · rintro ⟨a, hdom, henc⟩
    obtain rfl := eq_encodedBytes hdom henc
    obtain ⟨r', hr', hstatus, -⟩ := decoder_answers_operand hwf hpair hdom (fits_encodedBytes hdom hcfg) hin
    cases h.symm.trans hr'
    cases hr
    exact hstatus
  · intro a a' bs hdom hdom' henc henc'
    have hacc := (acceptedAs_iff hwf hpair).mpr ⟨hdom, eq_encodedBytes hdom henc⟩
    have hacc' := (acceptedAs_iff hwf hpair).mpr ⟨hdom', eq_encodedBytes hdom' henc'⟩
    exact acceptedAs_unique hacc hacc'
  · have hzero := encodesTo_encodedBytes (enc := .encOffset d) (a := 0) ⟨⟨hd1, hd15⟩, Nat.zero_le _⟩
    rwa [encodedBytes_offset_zero] at hzero

end Sys2Proof
end

section
/-! PROOFS. What each frame operation answers, on every operand, and the frame codec as inverse functions (41_frame R76–R86). -/

namespace Sys2Proof.Machine

/-- A record with STATUS = OK is that of a completed operation. -/
theorem respOf_eq_ok_of_status {i : Instr} {s t : State} {r : Resp} (h : exec i s = .next t) (hr : t.resp = some r)
    (hok : r.status = 0x00) : respOf s.cfg s.req i = .ok r := by
  obtain ⟨-, r', hr', hresp | ⟨e, -, rfl⟩⟩ := exec_next_record h
  · cases hr.symm.trans hr'
    exact hresp
  · cases hr.symm.trans hr'
    exact absurd hok (code_ne_ok e)

/-! ## The frame operand -/

/-- A frame operation on lengths that fail WF_F answers InvalidParameter (30_encoding R60). -/
theorem frameOperation_rejects {i : Instr} {s : State} (hi : ReadsFrame i) (h : FrameOperandBad s) :
    AnswersWith s (exec i s) (·.IsBare 0x03) := by
  obtain ⟨k, n, hk, hn, hbad⟩ := h
  have hraised : operandFrame s.cfg s.req = .error (.raised .invalidParameter) :=
    (operandFrame_some hk hn).trans (if_neg hbad)
  refine exec_answers_of_raised (e := .invalidParameter) ?_
  rcases hi with rfl | rfl | rfl | rfl
  · rw [respOf, respToBytes, hraised, error_bind]
  · rw [respOf, respIsCommand, hraised, error_bind]
  · rw [respOf, respIsCommand, hraised, error_bind]
  · rw [respOf, respIsEcho, hraised, error_bind]

/-- TOBYTES on a frame that fits answers its wire form (41_frame R78). -/
theorem toBytes_answers {s : State} {dest src : Byte} {cmd payload : List Byte} (h : s.req.HoldsFrame dest src cmd payload)
    (hfit : 5 + cmd.length + payload.length ≤ s.cfg.maxFrameBytes) :
    AnswersWith s (exec .toBytes s) (·.IsBytes (wireForm dest src cmd payload)) :=
  exec_answers_of_ok (i := .toBytes) (respToBytes_eq_ok.mpr ⟨dest, src, cmd, payload, h, hfit, rfl⟩) (bytes_isBytes _)

/-! ## The frame predicates -/

theorem answerBit_decide (p : Prop) [Decidable p] : answerBit (decide p) = if p then 1 else 0 := by
  by_cases h : p <;> simp [answerBit, h]

/-- The answer of IS_ACK and IS_NAK where WF_F holds: the payload and the addresses are not looked at. -/
theorem respIsCommand_of_good {s : State} {k : BitVec 2} {c0 : Byte} (code : Byte) (h : FrameOperandGood s k)
    (h0 : s.req.fCmd0 = some c0) :
    respIsCommand s.cfg s.req code = .ok (Resp.number (if k = 1 ∧ c0 = code then 1 else 0)) := by
  obtain ⟨n, hk, hn, hclen, hfit⟩ := h
  have hone : k = 1 ↔ k.toNat = 1 := BitVec.toNat_inj.symm
  refine respIsCommand_eq_ok.mpr ⟨k, n, c0, hk, hn, h0, hclen, hfit, ?_⟩
  rw [answerBit_decide]
  simp only [hone]

/-- The answer of IS_ECHO where WF_F holds. -/
theorem respIsEcho_of_good {s : State} {k : BitVec 2} {dest src : Byte} (h : FrameOperandGood s k)
    (hd : s.req.fDest = some dest) (hs : s.req.fSrc = some src) :
    respIsEcho s.cfg s.req =
      .ok (Resp.number (if src = s.cfg.controllerAddr ∧ dest ≠ s.cfg.controllerAddr then 1 else 0)) := by
  obtain ⟨n, hk, hn, hclen, hfit⟩ := h
  refine respIsEcho_eq_ok.mpr ⟨k, n, src, dest, hk, hn, hs, hd, hclen, hfit, ?_⟩
  rw [answerBit_decide]

/-- IS_ACK answers 1 only on a well-formed operand with the command ACK. -/
theorem isAck_one {s t : State} (h : exec .isAck s = .next t) (h1 : t.respValue .r = some 1) :
    ∃ k, FrameOperandGood s k ∧ s.req.fCmd0 = some ackCode := by
  obtain ⟨-, r, hr, hok | ⟨e, -, rfl⟩⟩ := exec_next_record h
  · obtain ⟨k, n, c0, hk, hn, h0, hclen, hfit, rfl⟩ := respIsCommand_eq_ok.mp hok
    obtain ⟨-, rfl⟩ : k.toNat = 1 ∧ c0 = ackCode := by
      by_contra hno
      simp [State.respValue, hr, Resp.read, Resp.number, answerBit, hno] at h1
    exact ⟨k, ⟨n, hk, hn, hclen, hfit⟩, h0⟩
  · simp [State.respValue, hr, Resp.read] at h1

/-! ## The split rule -/

theorem cmdLen_eq_two_iff {c : Config} {first : Byte} {n : Nat} :
    cmdLen c first n = 2 ↔ first ∈ c.subcmdCodes ∧ 2 ≤ n - 5 := by
  rcases cmdLen_cases c first n with ⟨e, h⟩ | ⟨e, h⟩ <;> simp only [e, h] <;> decide

theorem cmdLen_eq_one_iff {c : Config} {first : Byte} {n : Nat} :
    cmdLen c first n = 1 ↔ ¬(first ∈ c.subcmdCodes ∧ 2 ≤ n - 5) := by
  rcases cmdLen_cases c first n with ⟨e, h⟩ | ⟨e, h⟩ <;> simp only [e, h] <;> decide

/-- A one-byte command that is a sub-command code takes no payload (41_frame R85). -/
theorem splitConsistent_one_iff {c : Config} {c0 : Byte} {payload : List Byte} :
    SplitConsistent c [c0] payload ↔ (c0 ∈ c.subcmdCodes → payload = []) := by simp [SplitConsistent]

/-- A two-byte command begins with a sub-command code (41_frame R85). -/
theorem splitConsistent_two_iff {c : Config} {c0 c1 : Byte} {payload : List Byte} :
    SplitConsistent c [c0, c1] payload ↔ c0 ∈ c.subcmdCodes := by simp [SplitConsistent]

/-- A frame is split-consistent exactly when the split rule cuts its wire form behind its own command (41_frame R81, R85). -/
theorem splitConsistent_iff {c : Config} {cmd payload : List Byte} (dest src : Byte)
    (hcmd : cmd.length = 1 ∨ cmd.length = 2) :
    SplitConsistent c cmd payload ↔
      cmdLen c ((wireForm dest src cmd payload).getD 4 0) (wireForm dest src cmd payload).length = cmd.length := by
  rw [length_wireForm]
  match cmd, hcmd with
  | [c0], _ =>
    have hbody : 2 ≤ 5 + 1 + payload.length - 5 ↔ payload ≠ [] := by rw [← List.length_pos_iff]; omega
    rw [splitConsistent_one_iff, List.length_singleton, cmdLen_eq_one_iff, hbody, not_and, not_not]
    rfl
  | [c0, c1], _ =>
    have hbody : 2 ≤ 5 + 2 + payload.length - 5 := by omega
    rw [splitConsistent_two_iff, show [c0, c1].length = 2 from rfl, cmdLen_eq_two_iff, and_iff_left hbody]
    rfl

/-! ## PARSE -/

/-- PARSE rejects a length beyond the buffer, whatever IB holds. -/
theorem parse_rejects_long {s : State} {len : Nat} (hlen : s.req.ibLen = some len) (hlong : s.cfg.maxFrameBytes < len) :
    AnswersWith s (exec .parse s) (·.IsBare 0x03) := by
  refine exec_answers_of_raised (e := .invalidParameter) ?_
  simp [respOf, respParse, operandLen_eq, hlen, Nat.not_le.mpr hlong]

/-- PARSE rejects fewer bytes than a frame has, whatever IB holds. -/
theorem parse_rejects_short {s : State} {len : Nat} (hlen : s.req.ibLen = some len) (hfit : len ≤ s.cfg.maxFrameBytes)
    (hshort : len < 6) : AnswersWith s (exec .parse s) (·.IsBare 0x02) := by
  refine exec_answers_of_raised (e := .malformedFrame) ?_
  rw [respOf, respParse, operandLen_some hlen hfit, ok_bind, check_false (c := minFrameBytes ≤ len) (Nat.not_le.mpr hshort),
    error_bind]

/-- PARSE rejects a wrong preamble byte and a last byte that is no terminator. -/
theorem parse_rejects_delimiters {s : State} {b : List Byte} (hin : s.req.HoldsInput b) (hfit : b.length ≤ s.cfg.maxFrameBytes)
    (hbad : ¬((b.getD 0 0 = preambleByte ∧ b.getD 1 0 = preambleByte) ∧ b.getD (b.length - 1) 0 = terminator)) :
    AnswersWith s (exec .parse s) (·.IsBare 0x02) := by
  obtain ⟨hlen, hread⟩ := hin
  rcases Nat.lt_or_ge b.length 6 with hshort | hmin
  · exact parse_rejects_short hlen hfit hshort
  refine exec_answers_of_raised (e := .malformedFrame) ?_
  have hbytes : memRead .ib s.req.ib 0 b.length = .ok b := memRead_eq_ok.mpr ⟨rfl, by simpa using hread⟩
  rw [respOf, respParse, operandLen_some hlen hfit, ok_bind, check_true (show minFrameBytes ≤ b.length from hmin), ok_bind,
    hbytes, ok_bind, check_bind_check, check_false hbad, error_bind]

/-- PARSE of the wire form of a split-consistent frame answers its parts (41_frame R81, R85). -/
theorem parse_answers_wireForm {s : State} {dest src : Byte} {cmd payload : List Byte}
    (hcmd : cmd.length = 1 ∨ cmd.length = 2) (hin : s.req.HoldsInput (wireForm dest src cmd payload))
    (hfit : 5 + cmd.length + payload.length ≤ s.cfg.maxFrameBytes) (hsplit : SplitConsistent s.cfg cmd payload) :
    AnswersWith s (exec .parse s) (·.IsFrame dest src cmd payload) := by
  cases cmd with
  | nil => simp at hcmd
  | cons c0 cs =>
    have hlength : 5 + (c0 :: cs).length + payload.length = 6 + cs.length + payload.length := by simp; omega
    have hcut := (splitConsistent_iff dest src hcmd).mp hsplit
    rw [length_wireForm, hlength] at hcut
    obtain ⟨r, hr, hframe⟩ := respParse_wireForm hin (hlength ▸ hfit) hcut
    exact exec_answers_of_ok (i := .parse) hr hframe

/-- An input PARSE accepts is the wire form of a split-consistent frame, whose parts PARSE returns (41_frame R85). -/
theorem parse_ok_input {s t : State} {b : List Byte} {r : Resp} (hin : s.req.HoldsInput b) (h : exec .parse s = .next t)
    (hr : t.resp = some r) (hok : r.status = 0x00) :
    ∃ dest src cmd payload, (cmd.length = 1 ∨ cmd.length = 2) ∧ r.IsFrame dest src cmd payload ∧
      SplitConsistent s.cfg cmd payload ∧ wireForm dest src cmd payload = b ∧ b.length ≤ s.cfg.maxFrameBytes := by
  obtain ⟨b', hin', hfit, hmin, h0, h1, ht, rfl⟩ := respParse_eq_ok.mp (respOf_eq_ok_of_status h hr hok)
  obtain rfl := holdsInput_unique hin' hin
  have hle := cmdLen_le (c := s.cfg) (first := b.getD 4 0) hmin
  have hone_two : cmdLen s.cfg (b.getD 4 0) b.length = 1 ∨ cmdLen s.cfg (b.getD 4 0) b.length = 2 :=
    (cmdLen_cases s.cfg (b.getD 4 0) b.length).symm.imp And.left And.left
  generalize hcut : cmdLen s.cfg (b.getD 4 0) b.length = k at hle hone_two ⊢
  have hwire := wireForm_of_frame hmin h0 h1 ht hle
  have hlen : ((b.drop 4).take k).length = k := by
    rw [List.length_take, List.length_drop]
    omega
  have hcmd := hlen.symm ▸ hone_two
  refine ⟨_, _, _, _, hcmd, frame_isFrame hone_two hle, ?_, hwire, hfit⟩
  rw [splitConsistent_iff (b.getD 2 0) (b.getD 3 0) hcmd, hwire, hlen, hcut]

/-! ## TOBYTES, then PARSE -/

/-- Bytes the host has copied from a response are the input then (70_reset R107). -/
theorem holdsInput_of_takesOutput {q : Req} {r : Resp} {bs : List Byte} (hbytes : r.IsBytes bs) (h : q.TakesOutput r) :
    q.HoldsInput bs := by
  have ⟨_, _, hob, _⟩ := hbytes
  obtain ⟨hlen, hread⟩ := h
  exact holdsInput_of_isBytes hbytes hlen (hread _ hob)

/-- PARSE of the copied output of TOBYTES answers the split-consistent frame with the same body, whether or not that is the frame
operand itself (41_frame R85, R86). -/
theorem parse_of_toBytes_output {s : State} {dest src : Byte} {cmd payload cmd' payload' : List Byte}
    (h : s.req.HoldsFrame dest src cmd payload) (hfit : 5 + cmd.length + payload.length ≤ s.cfg.maxFrameBytes)
    (hbody : cmd ++ payload = cmd' ++ payload') (hcmd' : cmd'.length = 1 ∨ cmd'.length = 2)
    (hsplit : SplitConsistent s.cfg cmd' payload') :
    AnswersWith s (exec .toBytes s) fun r => r.IsBytes (wireForm dest src cmd payload) ∧
      ∀ u : State, u.cfg = s.cfg → u.req.TakesOutput r →
        AnswersWith u (exec .parse u) (·.IsFrame dest src cmd' payload') := by
  obtain ⟨r, hr, hbytes⟩ := toBytes_answers h hfit
  refine ⟨r, hr, hbytes, fun u hcfg htakes => ?_⟩
  have hin := holdsInput_of_takesOutput hbytes htakes
  have hwire : wireForm dest src cmd payload = wireForm dest src cmd' payload' := by
    rw [wireForm_eq, wireForm_eq, hbody]
  rw [← hcfg] at hfit hsplit
  have hlength := congrArg List.length hwire
  rw [length_wireForm, length_wireForm] at hlength
  exact parse_answers_wireForm hcmd' (hwire ▸ hin) (hlength ▸ hfit) hsplit

end Sys2Proof.Machine

namespace Sys2Proof
open Machine

/-- Settles O21: the bytes are `wireForm` of the operand. -/
theorem toBytesAnswers : Obligations.ToBytesAnswers :=
  ⟨rfl, fun _ => ⟨frameOperation_rejects (.inl rfl), fun _ _ _ _ => toBytes_answers⟩⟩

/-- Settles O22: the accepted inputs are wire forms, cut where their two parts are split-consistent. -/
theorem parseAnswers : Obligations.ParseAnswers := by
  refine ⟨rfl, fun s len hlen => ⟨parse_rejects_long hlen, parse_rejects_short hlen, fun hfit b hin hbad => ?_⟩,
    fun s dest src c0 more hin hfit => ⟨fun hone => ?_, fun c1 rest hcode hmore => ?_⟩⟩
  · have hb : len = b.length := Option.some.inj (hlen.symm.trans hin.1)
    subst hb
    exact parse_rejects_delimiters hin hfit (by simp only [preambleByte, terminator]; tauto)
  · have hsplit : SplitConsistent s.cfg [c0] more :=
      splitConsistent_one_iff.mpr fun hcode => hone.resolve_left (not_not.mpr hcode)
    exact parse_answers_wireForm (.inl rfl) hin hfit hsplit
  · subst hmore
    rw [List.length_cons] at hfit
    have hfit' : 5 + [c0, c1].length + rest.length ≤ s.cfg.maxFrameBytes := by rw [show [c0, c1].length = 2 from rfl]; omega
    exact parse_answers_wireForm (.inr rfl) hin hfit' (splitConsistent_two_iff.mpr hcode)

/-- Settles O23. -/
theorem isAckAnswers : Obligations.IsAckAnswers :=
  ⟨rfl, fun _ => ⟨frameOperation_rejects (.inr (.inl rfl)), fun _ _ hgood h0 =>
    exec_answers_of_ok (i := .isAck) (respIsCommand_of_good ackCode hgood h0) (number_isNumber _)⟩⟩

/-- Settles O24: where IS_ACK answers 1 the command is ACK, which is not NAK. -/
theorem isNakAnswers : Obligations.IsNakAnswers := by
  have hanswer {s : State} {k : BitVec 2} {c0 : Byte} (hgood : FrameOperandGood s k) (h0 : s.req.fCmd0 = some c0) :
      AnswersWith s (exec .isNak s) (·.IsNumber (if k = 1 ∧ c0 = 0xFA then 1 else 0)) :=
    exec_answers_of_ok (i := .isNak) (respIsCommand_of_good nakCode hgood h0) (number_isNumber _)
  refine ⟨rfl, fun s => ⟨frameOperation_rejects (.inr (.inr (.inl rfl))), fun k c0 => hanswer, fun t h h1 => ?_⟩⟩
  obtain ⟨k, hgood, h0⟩ := isAck_one h h1
  obtain ⟨r, hr, -, hnum, -⟩ := hanswer hgood h0
  have hnotNak : ackCode ≠ 0xFA := by decide
  rw [if_neg fun hnak => hnotNak hnak.2] at hnum
  exact ⟨_, hr, by simp [State.respValue, Resp.read, hnum]⟩

/-- Settles O25. -/
theorem isEchoAnswers : Obligations.IsEchoAnswers :=
  ⟨rfl, fun _ => ⟨frameOperation_rejects (.inr (.inr (.inr rfl))), fun _ _ _ hgood hd hs =>
    exec_answers_of_ok (i := .isEcho) (respIsEcho_of_good hgood hd hs) (number_isNumber _)⟩⟩

/-- Settles O26: one direction is `parse_of_toBytes_output` with the operand's own parts, the other `parse_ok_input`. -/
theorem frameCodecsAreInverse : Obligations.FrameCodecsAreInverse := by
  refine ⟨fun s dest src cmd payload h hfit hsplit => ?_, fun s t b r hin h hr hok => ?_⟩
  · have ⟨_, _, hcmd, _⟩ := h
    obtain ⟨r, hr, ⟨hstatus, -⟩, hparse⟩ := parse_of_toBytes_output h hfit rfl hcmd hsplit
    exact ⟨r, hr, hstatus, hparse⟩
  · obtain ⟨dest, src, cmd, payload, hcmd, hframe, hsplit, rfl, hfit⟩ := parse_ok_input hin h hr hok
    rw [length_wireForm] at hfit
    exact ⟨dest, src, cmd, payload, hcmd, hframe, hsplit, fun u hcfg hu => toBytes_answers hu (hcfg ▸ hfit)⟩

/-- Settles O27: the body is that of a split-consistent frame with the command one byte longer, or shorter. -/
theorem knownEdgeIsKept : Obligations.KnownEdgeIsKept := by
  refine ⟨fun s dest src c0 p0 ps h hfit hcode => ?_, fun s dest src c0 c1 payload h hfit hcode => ?_⟩
  · have hfit' : 5 + [c0].length + (p0 :: ps).length ≤ s.cfg.maxFrameBytes := by simp; omega
    exact parse_of_toBytes_output (cmd := [c0]) h hfit' rfl (.inr rfl) (splitConsistent_two_iff.mpr hcode)
  · have hsplit : SplitConsistent s.cfg [c0] (c1 :: payload) := splitConsistent_one_iff.mpr fun hcode' => absurd hcode' hcode
    exact parse_of_toBytes_output (cmd := [c0, c1]) h hfit rfl (.inl rfl) hsplit

end Sys2Proof
end

section
/-! PROOFS. Errors are no traps: which status each operation can give, what an error leaves in RESP, the two faults of a step, and
the idle block (60_exceptions R88, R89, R92, R93, R101). -/

namespace Sys2Proof.Machine

/-! ## The status of a response -/

/-- The operations that decode BCD, the only ones to raise MalformedData (60_exceptions R88). -/
def DecodesBcd (i : Instr) : Prop := i = .decFreq ∨ i = .decLevel ∨ ∃ d, i = .decOffset d

/-- PARSE decodes no BCD. -/
theorem not_decodesBcd_parse : ¬DecodesBcd .parse := by simp [DecodesBcd]

/-- Which operation gives which STATUS (60_exceptions R88): OK and InvalidParameter any, MalformedData a BCD decoder, and
MalformedFrame PARSE. -/
theorem exec_next_status {s t : State} {i : Instr} {r : Resp} (h : exec i s = .next t) (hr : t.resp = some r) :
    (r.status = 0x00 ∨ r.status = 0x03) ∨ (r.status = 0x01 ∧ DecodesBcd i) ∨ (r.status = 0x02 ∧ i = .parse) := by
  obtain ⟨-, r', hr', hresp⟩ := exec_next_record h
  cases hr.symm.trans hr'
  rcases hresp with hok | ⟨e, hraised, rfl⟩
  · exact .inl (.inl (respOf_ok_status hok))
  · rcases respOf_raised_cases hraised with rfl | ⟨rfl, hi⟩ | ⟨rfl, hi⟩
    · exact .inl (.inr rfl)
    · exact .inr (.inl ⟨rfl, hi⟩)
    · exact .inr (.inr ⟨rfl, hi⟩)

/-- What a request that is answered leaves: nothing but RESP changes, and the new record has STATUS OK or is the bare one of an
error (60_exceptions R89). -/
theorem transaction_next_record {s t : State} (h : transaction s = .next t) :
    SameButResp s t ∧ ∃ r, t.resp = some r ∧ (r.status = 0x00 ∨ ∃ e : ErrorKind, r = Resp.only e.code) := by
  rcases transaction_cases s with ⟨-, e⟩ | ⟨w, k, -, -, e⟩ | ⟨w, i, -, -, e⟩ <;> rw [e] at h
  · cases h
  · cases h
    exact ⟨sameButResp_resp s _, _, rfl, .inr ⟨_, rfl⟩⟩
  · obtain ⟨hsame, r, hr, hresp⟩ := exec_next_record h
    exact ⟨hsame, r, hr, hresp.imp respOf_ok_status fun ⟨e, _, hbare⟩ => ⟨e, hbare⟩⟩

/-- The codes of the kinds the block raises end at 0x04 (60_exceptions R92). -/
theorem code_le_four (e : ErrorKind) : e.code.toNat ≤ 4 := by cases e <;> decide

/-! ## The idle block -/

/-- With no action pending and no request waiting the block idles (60_exceptions R101). -/
theorem step_idle {s : State} (hh : s.host = []) (hw : s.port.waiting = false) : step s = .next s := by
  simp [step_nil hh, idle, hw]

/-! ## Faults -/

/-- An operation whose fields were all written is answered, whatever they hold: its only fault is on one that was not. -/
theorem exec_answers_of_written {s : State} {i : Instr} (hw : s.req.Written s.cfg i) :
    ∃ t r, exec i s = .next t ∧ t.resp = some r := by
  rw [exec_eq_finish]
  rcases finish_cases s (respOf s.cfg s.req i) with ⟨r, -, h⟩ | ⟨e, -, h⟩ | ⟨f, hf, -⟩
  · exact ⟨_, r, h, rfl⟩
  · exact ⟨_, _, h, raiseError_resp s e⟩
  · obtain ⟨-, -, -, hunwritten⟩ := respOf_fault_cases hf
    exact absurd hw hunwritten

/-- A host write never faults. -/
theorem hostWrite_ne_fault {g : ReqField} {v : Int} {s : State} {f : Fault} : hostWrite g v s ≠ .fault f := by
  unfold hostWrite
  split <;> exact nofun

/-- When a host action faults: a read or a copy on a RESP field without a value, a request or an answering edge on a REQ field
without one. -/
theorem runAction_fault {x : HostAction} {s : State} {f : Fault} (h : runAction x s = .fault f) :
    (∃ g, f = .noValue g ∧ s.respValue g = none ∧ (x = .read g ∨ ∃ d, x = .copy g d)) ∨
      ∃ g, f = .unwrittenReqField g ∧ ((x = .issue ∧ s.req.hasValue g = false) ∨
        ∃ q n, s.port = .busy q n ∧ q.hasValue g = false ∧ ∃ p, x = .clock p) := by
  cases x with
  | write g v => exact absurd h hostWrite_ne_fault
  | issue =>
    simp only [runAction, issueRequest] at h
    split at h
    · obtain ⟨g, hf, hg⟩ := transaction_fault h
      exact .inr ⟨g, hf, .inl ⟨rfl, hg⟩⟩
    · cases h
  | read g =>
    simp only [runAction, hostRead] at h
    split at h
    · cases h
    · next hv => cases h; exact .inl ⟨g, rfl, hv, .inl rfl⟩
  | copy g d =>
    simp only [runAction, hostCopy] at h
    split at h
    · exact absurd h hostWrite_ne_fault
    · next hv => cases h; exact .inl ⟨g, rfl, hv, .inr ⟨d, rfl⟩⟩
  | reset => cases h
  | clock p =>
    obtain ⟨q, n, g, hp, hf, hg⟩ := clockEdge_fault h
    exact .inr ⟨g, hf, .inr ⟨q, n, hp, hg, p, rfl⟩⟩

/-- With no action pending a step faults only where it answers a waiting request, on a sampled field without a value. -/
theorem step_fault_nil {s : State} {f : Fault} (hh : s.host = []) (h : step s = .fault f) :
    ∃ q n g, s.port = .busy q n ∧ f = .unwrittenReqField g ∧ q.hasValue g = false := by
  cases hw : s.port.waiting with
  | false => cases (step_idle hh hw).symm.trans h
  | true => exact clockEdge_fault ((step_waiting hh hw).symm.trans h)

end Sys2Proof.Machine

namespace Sys2Proof
open Machine

/-- Settles O32: each operation's other codes are those of operations it is not, and a transaction's code is OK or an error
kind's. -/
theorem statusKindsPerOperation : Obligations.StatusKindsPerOperation := by
  refine ⟨fun s t i r h hr => ?_, fun s t h => ?_⟩
  · rcases exec_next_status h hr with hany | ⟨hdata, hdecodes⟩ | ⟨hframe, rfl⟩
    · exact ⟨fun _ => hany.imp_right .inr, fun _ => hany.imp_right .inr, fun _ => hany⟩
    · refine ⟨fun _ => .inr (.inl hdata), ?_, ?_⟩
      · rintro rfl
        exact absurd hdecodes not_decodesBcd_parse
      · rcases hdecodes with rfl | rfl | ⟨d, rfl⟩ <;> simp
    · exact ⟨fun hdecodes => absurd hdecodes not_decodesBcd_parse, fun _ => .inr (.inl hframe), by simp⟩
  · obtain ⟨-, r, hr, hok | ⟨e, rfl⟩⟩ := transaction_next_record h
    · exact ⟨r, hr, by simp [hok]⟩
    · exact ⟨_, hr, code_le_four e⟩

/-- Settles O33: a record whose STATUS is not OK is the bare one of an error. -/
theorem errorIsNoTrap : Obligations.ErrorIsNoTrap := by
  intro s t r h hr hne
  obtain ⟨hsame, r', hr', hresp⟩ := transaction_next_record h
  cases hr.symm.trans hr'
  obtain ⟨e, rfl⟩ := hresp.resolve_left hne
  exact ⟨hsame, only_isBare e.code⟩

/-- Settles O34: a word either selects no operation, and raises IllegalOperation, or selects one whose fields were written; and a
step is the first pending action, or what the block does meanwhile. -/
theorem writtenRequestIsAnswered : Obligations.WrittenRequestIsAnswered := by
  refine ⟨fun s w hw hwritten => ?_, fun s f h => ?_⟩
  · cases hd : decode w with
    | error e => exact ⟨_, _, transaction_of_decode_error hw hd, raiseError_resp s _⟩
    | ok i =>
      rw [transaction_of_decode_ok hw hd]
      exact exec_answers_of_written (hwritten i hd)
  · cases hh : s.host with
    | nil =>
      obtain ⟨q, n, g, hp, hf, hg⟩ := step_fault_nil hh h
      exact .inr ⟨g, hf, .inr ⟨q, n, hp, hg, .inl rfl⟩⟩
    | cons x rest =>
      rw [step_cons hh] at h
      rcases runAction_fault h with ⟨g, hf, hv, hx⟩ | ⟨g, hf, ⟨rfl, hg⟩ | ⟨q, n, hp, hg, p, rfl⟩⟩
      · refine .inl ⟨g, rest, hf, hv, ?_⟩
        rcases hx with rfl | ⟨d, rfl⟩
        · exact .inl rfl
        · exact .inr ⟨d, rfl⟩
      · exact .inr ⟨g, hf, .inl ⟨rest, rfl, hg⟩⟩
      · exact .inr ⟨g, hf, .inr ⟨q, n, hp, hg, .inr ⟨p, rest, rfl⟩⟩⟩

/-- Settles O11. -/
theorem idleKeepsState : Obligations.IdleKeepsState := fun _ => step_idle

end Sys2Proof
end

section
/-! PROOFS. Reset and the host's copy (70_reset R102, R107); what a step does to RESP and to the pending actions, and the runs made
of such steps (R109, R110). -/

namespace Sys2Proof.Machine

/-! ## One equation per host action -/

/-- A host write outside its buffer is refused (log 8). -/
theorem hostWrite_of_not_inBuffer {f : ReqField} {s : State} (v : Int) (h : f.inBuffer s.cfg = false) :
    hostWrite f v s = .refused (.noSuchBufferByte f) :=
  if_neg (Bool.eq_false_iff.mp h)

/-- A host copy of a field that holds a value is the write of that value. -/
theorem hostCopy_of_value {src : RespField} {dst : ReqField} {s : State} {v : Nat} (h : s.respValue src = some v) :
    hostCopy src dst s = hostWrite dst v s := by
  simp [hostCopy, h]

/-- A host copy of a field that holds none. -/
theorem hostCopy_of_none {src : RespField} {dst : ReqField} {s : State} (h : s.respValue src = none) :
    hostCopy src dst s = .fault (.noValue src) := by
  simp [hostCopy, h]

/-! ## What a step leaves in RESP (10_state R23, R29) -/

/-- RESP of `t` is what the atomic transaction on the request of `s` gives. -/
def AnswersRequest (s t : State) : Prop := ∃ u, transaction { s with req := s.request } = .next u ∧ t.resp = u.resp

/-- What a transaction answers depends on CFG and REQ alone, so any state with those of the request will do (10_state R28). -/
theorem AnswersRequest.of_transaction {s t v w : State} (hv : transaction v = .next w) (hc : v.cfg = s.cfg)
    (hq : v.req = s.request) (hresp : t.resp = w.resp) : AnswersRequest s t :=
  ⟨_, transaction_congr (s' := { s with req := s.request }) hc.symm hq.symm hv, hresp⟩

/-- A ready port has no sampled request: the request is REQ. -/
theorem request_of_reqReady {s : State} (h : s.port.reqReady = true) : s.request = s.req := by
  cases hp : s.port with
  | ready => simp [State.request, hp]
  | busy q age => simp [hp] at h
  | answered => simp [hp] at h

/-- The request of a waiting port is the sampled one. -/
theorem request_of_busy {s : State} {q : Req} {age : Nat} (h : s.port = .busy q age) : s.request = q := by
  simp [State.request, h]

/-- An answered request leaves a record in RESP. -/
theorem AnswersRequest.resp_eq_some {s t : State} (h : AnswersRequest s t) : ∃ r, t.resp = some r := by
  obtain ⟨u, hu, hresp⟩ := h
  obtain ⟨r, rfl⟩ := transaction_next hu
  exact ⟨r, hresp⟩

/-- A clock edge raises `rsp_valid` for a waiting request exactly where it answers it; any other edge without `rst` keeps RESP. -/
theorem clockEdge_response {p : Pins} {s t : State} (h : clockEdge p s = .next t) :
    ((s.port.waiting && t.port.rspValid) = true ∧ AnswersRequest s t) ∨
      ((s.port.waiting && t.port.rspValid) = false ∧ (p.rst = true ∨ t.resp = s.resp)) := by
  rcases clockEdge_next h with ⟨hr, rfl⟩ | ⟨-, hp, -, rfl⟩ | ⟨-, hp, -, rfl⟩ | ⟨q, age, r, -, hp, -, -, htr, rfl⟩ |
    ⟨q, age, -, hp, -, rfl⟩ | ⟨-, hp, -, rfl⟩ | ⟨-, hp, -, rfl⟩
  · exact .inr ⟨by simp, .inl hr⟩
  · exact .inr ⟨by simp [hp], .inr rfl⟩
  · exact .inr ⟨by simp [hp], .inr rfl⟩
  · exact .inl ⟨by simp [hp], .of_transaction htr rfl (request_of_busy hp).symm rfl⟩
  · exact .inr ⟨by simp, .inr rfl⟩
  · exact .inr ⟨by simp [hp], .inr rfl⟩
  · exact .inr ⟨by simp [hp], .inr rfl⟩

/-- A step that produces a response answers its request; any other keeps RESP, unless its action is a reset. -/
theorem step_response {s t : State} (h : step s = .next t) :
    (producesResponse s t = true ∧ AnswersRequest s t) ∨
      (producesResponse s t = false ∧ ((∃ x, s.host.head? = some x ∧ x.isReset = true) ∨ t.resp = s.resp)) := by
  rcases step_next h with ⟨hh, ⟨hw, rfl⟩ | ⟨-, hclock⟩⟩ | ⟨x, rest, hh, hx⟩
  · exact .inr ⟨by simp [producesResponse, hh, hw], .inr rfl⟩
  · rcases clockEdge_response hclock with ⟨hp, ha⟩ | ⟨hp, hr⟩
    · exact .inl ⟨by simp [producesResponse, hh, hp], ha⟩
    · exact .inr ⟨by simp [producesResponse, hh, hp], .inr (hr.resolve_left nofun)⟩
  have hhead : s.host.head? = some x := by simp [hh]
  have hvalid : (s.port.waiting && s.port.rspValid) = false := by cases s.port <;> rfl
  rcases hx with ⟨f, v, rfl, -, rfl⟩ | ⟨rfl, hready, r, htr, rfl⟩ | ⟨f, v, rfl, -, rfl⟩ | ⟨a, b, v, rfl, -, -, rfl⟩ |
    ⟨rfl, rfl⟩ | ⟨p, rfl, hclock⟩
  · exact .inr ⟨by simp [producesResponse, hh, hvalid], .inr rfl⟩
  · exact .inl ⟨by simp [producesResponse, hh], .of_transaction htr rfl (request_of_reqReady hready).symm rfl⟩
  · exact .inr ⟨by simp [producesResponse, hh, hvalid], .inr rfl⟩
  · exact .inr ⟨by simp [producesResponse, hh, hvalid], .inr rfl⟩
  · exact .inr ⟨by simp [producesResponse, hh], .inl ⟨_, hhead, rfl⟩⟩
  · rcases clockEdge_response hclock with ⟨hp, ha⟩ | ⟨hp, hr⟩
    · obtain ⟨u, hu, hresp⟩ := ha
      exact .inl ⟨by simpa [producesResponse, hh] using hp, .of_transaction hu rfl rfl hresp⟩
    · refine .inr ⟨by simpa [producesResponse, hh] using hp, ?_⟩
      exact hr.imp_left fun hrst => ⟨_, hhead, hrst⟩

/-! ## What a step leaves of the pending actions -/

/-- A clock edge leaves the pending actions as they are. -/
theorem host_clockEdge {p : Pins} {s t : State} (h : clockEdge p s = .next t) : t.host = s.host := by
  rcases clockEdge_next h with ⟨-, rfl⟩ | ⟨-, -, -, rfl⟩ | ⟨-, -, -, rfl⟩ | ⟨q, age, r, -, -, -, -, -, rfl⟩ |
    ⟨q, age, -, -, -, rfl⟩ | ⟨-, -, -, rfl⟩ | ⟨-, -, -, rfl⟩ <;> rfl

/-- A step takes the first pending action, if there is one. -/
theorem host_step {s t : State} (h : step s = .next t) : t.host = s.host.tail := by
  rcases step_next h with ⟨hh, ⟨-, rfl⟩ | ⟨-, hclock⟩⟩ | ⟨x, rest, hh, hx⟩
  · rw [hh]; rfl
  · rw [host_clockEdge hclock, hh]; rfl
  rw [hh, List.tail_cons]
  rcases hx with ⟨f, v, -, -, rfl⟩ | ⟨-, -, r, -, rfl⟩ | ⟨f, v, -, -, rfl⟩ | ⟨a, b, v, -, -, -, rfl⟩ | ⟨-, rfl⟩ |
    ⟨p, -, hclock⟩
  · rfl
  · rfl
  · rfl
  · rfl
  · rfl
  · exact host_clockEdge hclock

/-! ## RESP along a run (70_reset R110) -/

/-- The responses of a run whose first step goes on. -/
theorem responsesOf_succ {s t : State} (k : Nat) (h : step s = .next t) :
    responsesOf (k + 1) s = (if producesResponse s t then t.resp.toList else []) ++ responsesOf k t := by
  simp [responsesOf, h]

/-- After a step that is no reset RESP is the response it produced, and what it was before if there is none. -/
theorem resp_step {s t : State} (hreset : ∀ x ∈ s.host, x.isReset = false) (h : step s = .next t) :
    t.resp = (if producesResponse s t then t.resp.toList else []).getLast?.or s.resp := by
  rcases step_response h with ⟨hp, ha⟩ | ⟨hp, ⟨x, hx, hr⟩ | hsame⟩
  · obtain ⟨r, hr⟩ := ha.resp_eq_some
    simp [hp, hr]
  · have hnot := hreset x (List.mem_of_mem_head? hx)
    simp [hnot] at hr
  · simp [hp, hsame]

/-- After a run without a reset RESP is the last response it produced, and what it was before if there is none. -/
theorem resp_run {k : Nat} {s t : State} (hreset : ∀ x ∈ s.host, x.isReset = false)
    (hrun : Host.Core.run Sys2Proof.core k s = .next t) : t.resp = (responsesOf k s).getLast?.or s.resp := by
  induction k generalizing s with
  | zero => cases hrun; rfl
  | succ k ih =>
    cases hstep : step s with
    | fault f => cases (run_fault hstep).symm.trans hrun
    | refused r => cases (run_refused hstep).symm.trans hrun
    | next s' =>
      have hreset' : ∀ x ∈ s'.host, x.isReset = false := fun x hx =>
        hreset x (List.mem_of_mem_tail (host_step hstep ▸ hx))
      rw [responsesOf_succ k hstep, List.getLast?_append, Option.or_assoc, ← resp_step hreset hstep]
      exact ih hreset' ((run_next hstep).symm.trans hrun)

/-! ## The end of a run (70_reset R109, R110) -/

/-- A run of one step is that step. -/
theorem run_one (s : State) : Host.Core.run Sys2Proof.core 1 s = step s := by
  cases h : step s with
  | next t => exact run_next h
  | fault f => exact run_fault h
  | refused r => exact run_refused h

/-- An ended run stays as it is. -/
theorem run_of_runEnded {s : State} (h : s.runEnded) (k : Nat) : Host.Core.run Sys2Proof.core k s = .next s := by
  induction k with
  | zero => rfl
  | succ k ih => exact (run_next (step_idle h.1 h.2)).trans ih

/-- With no action pending a waiting request is answered once the edges its latency still asks for, `k` at most, have been
counted. -/
theorem run_quiet_answer {s : State} {q : Req} {age k : Nat} (hh : s.host = []) (hp : s.port = .busy q age)
    (hl : s.cfg.responseLatency ≤ age + k + 1) :
    ∃ j e n, j ≤ k ∧
      Host.Core.run Sys2Proof.core (j + 1) s = answerSampled q { s with edges := e, port := .busy q n } := by
  induction k generalizing s age with
  | zero => exact ⟨0, s.edges + 1, age, le_rfl, (run_one s).trans (hp ▸ step_waiting_answer hh hp hl)⟩
  | succ k ih =>
    by_cases hnow : s.cfg.responseLatency ≤ age + 1
    · exact ⟨0, s.edges + 1, age, Nat.zero_le _, (run_one s).trans (hp ▸ step_waiting_answer hh hp hnow)⟩
    · have hstep := step_waiting_early hh hp (by omega)
      obtain ⟨j, e, n, hj, hrun⟩ :=
        ih (s := { s with edges := s.edges + 1, port := .busy q (age + 1) }) hh rfl (by simp only; omega)
      exact ⟨j + 1, e, n, Nat.succ_le_succ hj, (run_next hstep).trans hrun⟩

/-- A run has ended, or has stopped. -/
def EndedOrStopped (o : Host.Outcome State Fault Refusal) : Prop :=
  (∃ t : State, o = .next t ∧ t.runEnded) ∨ (∃ f, o = .fault f) ∨ ∃ r, o = .refused r

/-- The answer to a sampled request with no action pending ends the run, or stops it. -/
theorem answerSampled_endedOrStopped {q : Req} {s : State} (hh : s.host = []) : EndedOrStopped (answerSampled q s) := by
  cases h : answerSampled q s with
  | next t =>
    obtain ⟨r, rfl, -⟩ := answerSampled_next h
    exact .inl ⟨_, rfl, hh, rfl⟩
  | fault f => exact .inr (.inl ⟨f, rfl⟩)
  | refused r => exact .inr (.inr ⟨r, rfl⟩)

/-- The pending actions and then the quiet edges of the latency bring a run to its end or to a stop. -/
theorem run_endedOrStopped {s : State} {l : List HostAction} (hh : s.host = l) :
    ∃ k, k ≤ l.length + s.cfg.responseLatency + 1 ∧ EndedOrStopped (Host.Core.run Sys2Proof.core k s) := by
  induction l generalizing s with
  | nil =>
    cases hw : s.port.waiting with
    | false => exact ⟨0, Nat.zero_le _, .inl ⟨s, rfl, hh, hw⟩⟩
    | true =>
      obtain ⟨q, age, hp⟩ := waiting_iff.mp hw
      obtain ⟨j, e, n, hj, hrun⟩ := run_quiet_answer (k := s.cfg.responseLatency) hh hp (by omega)
      exact ⟨j + 1, by omega, hrun ▸ answerSampled_endedOrStopped hh⟩
  | cons x rest ih =>
    cases hstep : step s with
    | next t =>
      have hrest : t.host = rest := by rw [host_step hstep, hh, List.tail_cons]
      obtain ⟨k, hk, hend⟩ := ih hrest
      rw [cfg_step hstep] at hk
      exact ⟨k + 1, by rw [List.length_cons]; omega, run_next hstep ▸ hend⟩
    | fault f => exact ⟨1, by omega, .inr (.inl ⟨f, run_fault hstep⟩)⟩
    | refused r => exact ⟨1, by omega, .inr (.inr ⟨r, run_refused hstep⟩)⟩

/-! ## A waiting request is answered (70_reset R109) -/

/-- The run has left `resp` in RESP at an answered port, or the host has stopped it: by reading a field without a value, or by an
action outside the table. -/
def AnsweredOrHostStopped (resp : Option Resp) (o : Host.Outcome State Fault Refusal) : Prop :=
  (∃ t : State, o = .next t ∧ t.port = .answered ∧ t.resp = resp) ∨ (∃ g, o = .fault (.noValue g)) ∨ ∃ r, o = .refused r

/-- What the first pending action can do to a waiting request where it is no reset: leave it waiting, answer it, or stop the run
as only the host can. -/
theorem step_cons_busy {s : State} {q : Req} {age : Nat} {x : HostAction} {rest : List HostAction} (hh : s.host = x :: rest)
    (hp : s.port = .busy q age) (hx : x.isReset = false) :
    (∃ t n, step s = .next t ∧ t.port = .busy q n) ∨ (∃ s' : State, s'.cfg = s.cfg ∧ step s = answerSampled q s') ∨
      (∃ g, step s = .fault (.noValue g)) ∨ ∃ r, step s = .refused r := by
  rw [step_cons hh]
  have hwrite (f : ReqField) (v : Int) : (∃ t n, hostWrite f v { s with host := rest } = .next t ∧ t.port = .busy q n) ∨
      ∃ r, hostWrite f v { s with host := rest } = .refused r := by
    cases hf : f.inBuffer s.cfg with
    | true => exact .inl ⟨_, age, hostWrite_of_inBuffer (s := { s with host := rest }) v hf, hp⟩
    | false => exact .inr ⟨_, hostWrite_of_not_inBuffer (s := { s with host := rest }) v hf⟩
  cases x with
  | write f v => exact (hwrite f v).imp_right fun hr => .inr (.inr hr)
  | issue => exact .inr (.inr (.inr ⟨_, if_neg (by simp [hp])⟩))
  | read f =>
    cases hv : s.respValue f with
    | some v => exact .inl ⟨_, age, hostRead_of_value (s := { s with host := rest }) hv, hp⟩
    | none => exact .inr (.inr (.inl ⟨f, hostRead_of_none (s := { s with host := rest }) hv⟩))
  | copy src dst =>
    cases hv : s.respValue src with
    | some v =>
      rw [runAction, hostCopy_of_value (s := { s with host := rest }) hv]
      exact (hwrite dst v).imp_right fun hr => .inr (.inr hr)
    | none => exact .inr (.inr (.inl ⟨src, hostCopy_of_none (s := { s with host := rest }) hv⟩))
  | reset => cases hx
  | clock p =>
    by_cases ha : p.answer = true ∧ s.cfg.responseLatency ≤ age + 1
    · exact .inr (.inl ⟨{ s with host := rest, edges := s.edges + 1 }, rfl,
        clockEdge_busy_answers (s := { s with host := rest }) hx hp ha.1 ha.2⟩)
    · exact .inl ⟨_, age + 1, clockEdge_busy_waits (s := { s with host := rest }) hx hp ha, rfl⟩

/-- A waiting request is answered with what the atomic transaction on it gives, whatever the host still does without a reset, or
the host stops the run first. -/
theorem run_answeredOrHostStopped {s₀ s u : State} {q : Req} {age : Nat} {l : List HostAction} (hh : s.host = l)
    (hp : s.port = .busy q age) (hreset : ∀ x ∈ l, x.isReset = false) (hc : s.cfg = s₀.cfg)
    (hu : transaction { s₀ with req := q } = .next u) :
    ∃ k, k ≤ l.length + s.cfg.responseLatency + 1 ∧ AnsweredOrHostStopped u.resp (Host.Core.run Sys2Proof.core k s) := by
  induction l generalizing s age with
  | nil =>
    obtain ⟨j, e, n, hj, hrun⟩ := run_quiet_answer (k := s.cfg.responseLatency) hh hp (by omega)
    exact ⟨j + 1, by omega, .inl ⟨_, hrun.trans (answerSampled_of_transaction hc hu), rfl, rfl⟩⟩
  | cons x rest ih =>
    obtain ⟨hx, hrest⟩ := List.forall_mem_cons.mp hreset
    rcases step_cons_busy hh hp hx with ⟨t, n, hstep, hport⟩ | ⟨s', hcfg, hstep⟩ | ⟨g, hstep⟩ | ⟨r, hstep⟩
    · have hhost : t.host = rest := by rw [host_step hstep, hh, List.tail_cons]
      obtain ⟨k, hk, hend⟩ := ih hhost hport hrest ((cfg_step hstep).trans hc)
      rw [cfg_step hstep] at hk
      exact ⟨k + 1, by rw [List.length_cons]; omega, run_next hstep ▸ hend⟩
    · have hanswer := hstep.trans (answerSampled_of_transaction (hcfg.trans hc) hu)
      exact ⟨1, by omega, .inl ⟨_, run_next hanswer, rfl, rfl⟩⟩
    · exact ⟨1, by omega, .inr (.inl ⟨g, run_fault hstep⟩)⟩
    · exact ⟨1, by omega, .inr (.inr ⟨r, run_refused hstep⟩)⟩

end Sys2Proof.Machine

namespace Sys2Proof
open Machine

/-- Settles O2: each of the two steps is `resetBlock`. -/
theorem resetAbandonsRequest : Obligations.ResetAbandonsRequest := by
  intro s rest
  refine ⟨fun hh => step_cons hh, fun p hr hh => (step_cons hh).trans ?_⟩
  simp [runAction, clockEdge, hr, resetBlock]

/-- Settles O46: a copy is the host's write of the value it reads. -/
theorem copyFeedsPayload : Obligations.CopyFeedsPayload := by
  intro s src dst rest hh
  rw [step_cons hh]
  refine ⟨fun v hv hdst => ?_, fun hv => hostCopy_of_none (s := { s with host := rest }) hv⟩
  have hstep := (hostCopy_of_value (s := { s with host := rest }) (dst := dst) hv).trans (hostWrite_of_inBuffer v hdst)
  exact ⟨_, hstep, read_reqWrite_same s.cfg s.req dst v, fun f hf => read_reqWrite_other s.cfg s.req v hf⟩

/-- Settles O58: the two cases of `step_response`. -/
theorem eachResponseIsItsRequests : Obligations.EachResponseIsItsRequests := by
  intro s t h
  rcases step_response h with ⟨hp, ha⟩ | ⟨hp, hr⟩
  · exact ⟨fun _ => ha, fun hnot => by simp [hp] at hnot⟩
  · refine ⟨fun hyes => by simp [hp] at hyes, fun _ hreset => hr.resolve_left ?_⟩
    rintro ⟨x, hx, hrst⟩
    simp [hreset x hx] at hrst

/-- Settles O57: a run starts with RESP = NONE. -/
theorem runLeavesLastResponse : Obligations.RunLeavesLastResponse := by
  intro c actions k t hreset hrun
  have hresp := resp_run hreset hrun
  rwa [runStart_resp, Option.or_none] at hresp

/-- Settles O56. -/
theorem runEndsOrStops : Obligations.RunEndsOrStops :=
  ⟨fun _ => run_endedOrStopped rfl, fun _ => run_of_runEnded⟩

/-- Settles O55: with no action pending the run comes to the answering edge and to nothing else. -/
theorem acceptedRequestIsAnswered : Obligations.AcceptedRequestIsAnswered := by
  intro s q age hp
  refine ⟨fun u hreset hu => run_answeredOrHostStopped rfl hp hreset rfl hu, fun u hh hu => ?_, fun f hh hf => ?_⟩
  all_goals obtain ⟨j, e, n, hj, hrun⟩ := run_quiet_answer (k := s.cfg.responseLatency) hh hp (by omega)
  · exact ⟨j + 1, _, Nat.succ_le_succ hj, hrun.trans (answerSampled_of_transaction (s := s) rfl hu), rfl, rfl, rfl, rfl⟩
  · exact ⟨j + 1, Nat.succ_le_succ hj, hrun.trans (answerSampled_of_fault (s := s) rfl hf)⟩

end Sys2Proof
end
